-- ==== Sys2Proof/Word.lean ====
section
/-! DEFINITION. The 32-bit word of the block, its signed and unsigned readings, and the named raw
values (spec/00_scope.md rules R3 to R8). -/

namespace Sys2Proof

/-- A word: 32 bits numbered 31 (most significant) down to 0 (R3, R4). -/
abbrev Word := BitVec 32

/-- Unsigned reading of a word, 0 … 2^32 − 1 (R5). -/
abbrev u32 (w : Word) : Nat := w.toNat

/-- Two's-complement reading of a word, −2^31 … 2^31 − 1: the raw value it holds (R5). -/
abbrev s32 (w : Word) : Int := w.toInt

/-- The word whose signed reading is `v`; the spec uses it for −2^31 ≤ v ≤ 2^31 − 1 only (R5). -/
abbrev w32 (v : Int) : Word := BitVec.ofInt 32 v

/-- `MAX_RAW = INT32_MAX = 2^31 − 1` (R3, R8). -/
abbrev maxRaw : Int := 2147483647

/-- `MIN_RAW = INT32_MIN = −2^31` (R3, R8). -/
abbrev minRaw : Int := -2147483648

/-- `ONE_RAW = 65536 = 2^16`, the scale factor of the Q16.16 format (R3, R6, R8). -/
abbrev oneRaw : Int := 65536

/-- `MINUS_ONE_RAW = −65536` (R8). -/
abbrev minusOneRaw : Int := -65536

/-- An integer that a register can hold as a raw value (R5). -/
abbrev InRange (v : Int) : Prop := minRaw ≤ v ∧ v ≤ maxRaw

end Sys2Proof
end

