-- ==== Sys2Proof/Syntax.lean ====
section
/-! DEFINITION. The commands of the block: one constructor of `Instr` for each row of
spec/opcode_table.json (spec/30_encoding.md rule R63), over the register names of spec/10_state.md
rules R21 to R23. -/

namespace Sys2Proof

/-- The five hardwired constant registers k0 … k4 (R22). -/
inductive ConstReg where
  | zero
  | one
  | minusOne
  | max
  | min
  deriving DecidableEq, Repr

/-- What a register operand can name: a general register r0 … r7 or a constant register k0 … k4
(R21, R22, R23). The indices 13, 14 and 15 name nothing and have no term here; the decoder rejects
them. -/
inductive Reg where
  | gen (n : Fin 8)
  | const (k : ConstReg)
  deriving DecidableEq, Repr

/-- The fifteen commands (R63), operands in the assembler's order `rd, rs1, rs2, rs3` (R69). A constant
register as `rd` can be written but is not well formed (WellFormed.lean; R65 check 4). -/
inductive Instr where
  | add (rd rs1 rs2 : Reg)
  | sub (rd rs1 rs2 : Reg)
  | mul (rd rs1 rs2 : Reg)
  | div (rd rs1 rs2 : Reg)
  | pow (rd rs1 rs2 : Reg)
  | sqrt (rd rs1 : Reg)
  | abs (rd rs1 : Reg)
  | min (rd rs1 rs2 : Reg)
  | max (rd rs1 rs2 : Reg)
  | clamp (rd rs1 rs2 rs3 : Reg)
  | clamp01 (rd rs1 : Reg)
  | lerp (rd rs1 rs2 rs3 : Reg)
  | lerpu (rd rs1 rs2 rs3 : Reg)
  | cmp (rs1 rs2 : Reg)
  | fromint (rd rs1 : Reg)
  deriving DecidableEq, Repr

/-- The destination field of a command; CMP has none (R63). -/
def Instr.dest : Instr → Option Reg
  | .add rd _ _ => some rd
  | .sub rd _ _ => some rd
  | .mul rd _ _ => some rd
  | .div rd _ _ => some rd
  | .pow rd _ _ => some rd
  | .sqrt rd _ => some rd
  | .abs rd _ => some rd
  | .min rd _ _ => some rd
  | .max rd _ _ => some rd
  | .clamp rd _ _ _ => some rd
  | .clamp01 rd _ => some rd
  | .lerp rd _ _ _ => some rd
  | .lerpu rd _ _ _ => some rd
  | .cmp _ _ => none
  | .fromint rd _ => some rd

/-- The source registers a command uses, `rs1` first (R63). -/
def Instr.sources : Instr → List Reg
  | .add _ a b => [a, b]
  | .sub _ a b => [a, b]
  | .mul _ a b => [a, b]
  | .div _ a b => [a, b]
  | .pow _ a b => [a, b]
  | .sqrt _ a => [a]
  | .abs _ a => [a]
  | .min _ a b => [a, b]
  | .max _ a b => [a, b]
  | .clamp _ a b c => [a, b, c]
  | .clamp01 _ a => [a]
  | .lerp _ a b c => [a, b, c]
  | .lerpu _ a b c => [a, b, c]
  | .cmp a b => [a, b]
  | .fromint _ a => [a]

end Sys2Proof
end

