-- ==== Sys2Proof/WellFormed.lean ====
section
/-! DEFINITION. Which commands are well formed: those a legal command word spells (spec/30_encoding.md
rule R65). Every source register of the syntax is a legal source, so the one check left is the
destination's. -/

namespace Sys2Proof

/-- A general register, the only kind a command may name as its destination (R22, R65 check 4). -/
def Reg.isGeneral : Reg → Bool
  | .gen _ => true
  | .const _ => false

/-- A command is well formed when its destination, if it has one, is a general register (R65 check 4). -/
def Instr.wf (i : Instr) : Bool :=
  match i.dest with
  | some rd => rd.isGeneral
  | none => true

end Sys2Proof
end

