-- ==== Sys2Proof/Decode.lean ====
section
/-! DEFINITION. The command word: its fields, the legality test, the decoder (total on every word,
rejecting by name) and the encoder (spec/30_encoding.md rules R60 to R66). -/

namespace Sys2Proof

/-- The bit field `w[hi:lo]`, read as an unsigned integer (R4). -/
def field (w : Word) (hi lo : Nat) : Nat := w.toNat / 2 ^ lo % 2 ^ (hi - lo + 1)

/-- Field `opcode` (R60). -/
def opcodeField (w : Word) : Nat := field w 31 24
/-- Field `rd` (R60). -/
def rdField (w : Word) : Nat := field w 23 20
/-- Field `rs1` (R60). -/
def rs1Field (w : Word) : Nat := field w 19 16
/-- Field `rs2` (R60). -/
def rs2Field (w : Word) : Nat := field w 15 12
/-- Field `rs3` (R60). -/
def rs3Field (w : Word) : Nat := field w 11 8
/-- Field `zero`, which must be 0 (R60). -/
def zeroField (w : Word) : Nat := field w 7 0

/-- The register an index names: 0 … 7 are r0 … r7, 8 … 12 are k0 … k4, and no other index names
anything (R23). -/
def regOfIndex (n : Nat) : Option Reg :=
  if h : n < 8 then some (.gen ⟨n, h⟩)
  else if n = 8 then some (.const .zero)
  else if n = 9 then some (.const .one)
  else if n = 10 then some (.const .minusOne)
  else if n = 11 then some (.const .max)
  else if n = 12 then some (.const .min)
  else none

/-- The index of a register, in a command word and on the host port (R23). -/
def regIndex : Reg → Nat
  | .gen n => n.val
  | .const .zero => 8
  | .const .one => 9
  | .const .minusOne => 10
  | .const .max => 11
  | .const .min => 12

/-- Why a word is not a legal command, by the rows of rule R66. Every one of them is reported to the
host as the same error, IllegalCommand (R163). -/
inductive Reject where
  /-- opcode 0x00 or 0x10 … 0xFF -/
  | reservedOpcode
  /-- a source field in use holds 13, 14 or 15 -/
  | sourceNamesNoRegister
  /-- `rd` of a command with a destination holds 8 … 12 -/
  | destinationIsConstant
  /-- `rd` holds 13, 14 or 15 -/
  | destinationNamesNoRegister
  /-- CMP with `rd` not 0 -/
  | compareHasDestination
  /-- a source field that is not used is not 0 -/
  | unusedFieldNotZero
  /-- bits 7:0 are not 0 -/
  | zeroByteNotZero
  deriving DecidableEq, Repr

/-- A source field in use (R65 check 3). -/
def sourceOf (n : Nat) : Except Reject Reg :=
  match regOfIndex n with
  | some r => .ok r
  | none => .error .sourceNamesNoRegister

/-- A source field that is not used must be 0 (R65 check 3). -/
def unused (n : Nat) : Except Reject Unit :=
  if n = 0 then .ok () else .error .unusedFieldNotZero

/-- The destination field of a command that has one (R65 check 4). -/
def destOf (n : Nat) : Except Reject Reg :=
  match regOfIndex n with
  | some (.gen k) => .ok (.gen k)
  | some (.const _) => .error .destinationIsConstant
  | none => .error .destinationNamesNoRegister

/-- The operands of a command with a destination and one source. -/
def operands1 (w : Word) (f : Reg → Reg → Instr) : Except Reject Instr := do
  let a ← sourceOf (rs1Field w)
  unused (rs2Field w)
  unused (rs3Field w)
  let d ← destOf (rdField w)
  return f d a

/-- The operands of a command with a destination and two sources. -/
def operands2 (w : Word) (f : Reg → Reg → Reg → Instr) : Except Reject Instr := do
  let a ← sourceOf (rs1Field w)
  let b ← sourceOf (rs2Field w)
  unused (rs3Field w)
  let d ← destOf (rdField w)
  return f d a b

/-- The operands of a command with a destination and three sources. -/
def operands3 (w : Word) (f : Reg → Reg → Reg → Reg → Instr) : Except Reject Instr := do
  let a ← sourceOf (rs1Field w)
  let b ← sourceOf (rs2Field w)
  let c ← sourceOf (rs3Field w)
  let d ← destOf (rdField w)
  return f d a b c

/-- The operands of CMP: two sources, and `rd` must be 0 (R64, R65 check 4). -/
def operandsCmp (w : Word) : Except Reject Instr := do
  let a ← sourceOf (rs1Field w)
  let b ← sourceOf (rs2Field w)
  unused (rs3Field w)
  if rdField w = 0 then return .cmp a b else throw .compareHasDestination

/-- The decoder (R63, R65): total on every word; a word it rejects is an illegal command (R66). -/
def decode (w : Word) : Except Reject Instr :=
  if zeroField w ≠ 0 then .error .zeroByteNotZero
  else match opcodeField w with
    | 0x01 => operands2 w .add
    | 0x02 => operands2 w .sub
    | 0x03 => operands2 w .mul
    | 0x04 => operands2 w .div
    | 0x05 => operands2 w .pow
    | 0x06 => operands1 w .sqrt
    | 0x07 => operands1 w .abs
    | 0x08 => operands2 w .min
    | 0x09 => operands2 w .max
    | 0x0A => operands3 w .clamp
    | 0x0B => operands1 w .clamp01
    | 0x0C => operands3 w .lerp
    | 0x0D => operands3 w .lerpu
    | 0x0E => operandsCmp w
    | 0x0F => operands1 w .fromint
    | _ => .error .reservedOpcode

/-- The word with the given fields, format R4 (R60). -/
def wordOfFields (opcode rd rs1 rs2 rs3 : Nat) : Word :=
  BitVec.ofNat 32 (opcode * 2 ^ 24 + rd * 2 ^ 20 + rs1 * 2 ^ 16 + rs2 * 2 ^ 12 + rs3 * 2 ^ 8)

/-- The opcode of a command (R63). -/
def opcode : Instr → Nat
  | .add _ _ _ => 0x01
  | .sub _ _ _ => 0x02
  | .mul _ _ _ => 0x03
  | .div _ _ _ => 0x04
  | .pow _ _ _ => 0x05
  | .sqrt _ _ => 0x06
  | .abs _ _ => 0x07
  | .min _ _ _ => 0x08
  | .max _ _ _ => 0x09
  | .clamp _ _ _ _ => 0x0A
  | .clamp01 _ _ => 0x0B
  | .lerp _ _ _ _ => 0x0C
  | .lerpu _ _ _ _ => 0x0D
  | .cmp _ _ => 0x0E
  | .fromint _ _ => 0x0F

/-- The encoder, one line for each row of the table (R60, R63); unused fields are 0 (R69). It is total:
a command that is not well formed encodes to the word that spells it, which is illegal. -/
def encode (i : Instr) : Word :=
  match i with
  | .add d a b => wordOfFields (opcode i) (regIndex d) (regIndex a) (regIndex b) 0
  | .sub d a b => wordOfFields (opcode i) (regIndex d) (regIndex a) (regIndex b) 0
  | .mul d a b => wordOfFields (opcode i) (regIndex d) (regIndex a) (regIndex b) 0
  | .div d a b => wordOfFields (opcode i) (regIndex d) (regIndex a) (regIndex b) 0
  | .pow d a b => wordOfFields (opcode i) (regIndex d) (regIndex a) (regIndex b) 0
  | .sqrt d a => wordOfFields (opcode i) (regIndex d) (regIndex a) 0 0
  | .abs d a => wordOfFields (opcode i) (regIndex d) (regIndex a) 0 0
  | .min d a b => wordOfFields (opcode i) (regIndex d) (regIndex a) (regIndex b) 0
  | .max d a b => wordOfFields (opcode i) (regIndex d) (regIndex a) (regIndex b) 0
  | .clamp d a b c => wordOfFields (opcode i) (regIndex d) (regIndex a) (regIndex b) (regIndex c)
  | .clamp01 d a => wordOfFields (opcode i) (regIndex d) (regIndex a) 0 0
  | .lerp d a b c => wordOfFields (opcode i) (regIndex d) (regIndex a) (regIndex b) (regIndex c)
  | .lerpu d a b c => wordOfFields (opcode i) (regIndex d) (regIndex a) (regIndex b) (regIndex c)
  | .cmp a b => wordOfFields (opcode i) 0 (regIndex a) (regIndex b) 0
  | .fromint d a => wordOfFields (opcode i) (regIndex d) (regIndex a) 0 0

/-- A row of rule R64: a word spells the row's command only if `w AND mask = match`. -/
structure Row where
  mask : Word
  pattern : Word
  deriving DecidableEq, Repr

/-- Mask and match of the row a command belongs to, as rule R64 tabulates them. -/
def rowOf : Instr → Row
  | .add _ _ _ => ⟨0xFF000FFF#32, 0x01000000#32⟩
  | .sub _ _ _ => ⟨0xFF000FFF#32, 0x02000000#32⟩
  | .mul _ _ _ => ⟨0xFF000FFF#32, 0x03000000#32⟩
  | .div _ _ _ => ⟨0xFF000FFF#32, 0x04000000#32⟩
  | .pow _ _ _ => ⟨0xFF000FFF#32, 0x05000000#32⟩
  | .sqrt _ _ => ⟨0xFF00FFFF#32, 0x06000000#32⟩
  | .abs _ _ => ⟨0xFF00FFFF#32, 0x07000000#32⟩
  | .min _ _ _ => ⟨0xFF000FFF#32, 0x08000000#32⟩
  | .max _ _ _ => ⟨0xFF000FFF#32, 0x09000000#32⟩
  | .clamp _ _ _ _ => ⟨0xFF0000FF#32, 0x0A000000#32⟩
  | .clamp01 _ _ => ⟨0xFF00FFFF#32, 0x0B000000#32⟩
  | .lerp _ _ _ _ => ⟨0xFF0000FF#32, 0x0C000000#32⟩
  | .lerpu _ _ _ _ => ⟨0xFF0000FF#32, 0x0D000000#32⟩
  | .cmp _ _ => ⟨0xFFF00FFF#32, 0x0E000000#32⟩
  | .fromint _ _ => ⟨0xFF00FFFF#32, 0x0F000000#32⟩

/-- The word spells the row: the mask-and-match test of rule R64. -/
def Row.spelledBy (r : Row) (w : Word) : Bool := (w &&& r.mask) == r.pattern

/-- How many source fields the opcode uses; none for a reserved opcode (R63, R64). -/
def sourcesUsed (op : Nat) : Option Nat :=
  match op with
  | 0x01 | 0x02 | 0x03 | 0x04 | 0x05 | 0x08 | 0x09 | 0x0E => some 2
  | 0x06 | 0x07 | 0x0B | 0x0F => some 1
  | 0x0A | 0x0C | 0x0D => some 3
  | _ => none

/-- The legality test as rule R65 states it, check by check; it does not use the decoder. -/
def legal (w : Word) : Bool :=
  decide (zeroField w = 0) &&
  (match sourcesUsed (opcodeField w) with
   | none => false
   | some k =>
     decide (rs1Field w ≤ 12) &&
     (if 2 ≤ k then decide (rs2Field w ≤ 12) else decide (rs2Field w = 0)) &&
     (if 3 ≤ k then decide (rs3Field w ≤ 12) else decide (rs3Field w = 0))) &&
  (if opcodeField w = 0x0E then decide (rdField w = 0) else decide (rdField w ≤ 7))

/-- `NEG rd, rs`, an exact synonym of `SUB rd, k0, rs` (R70). -/
def neg (rd rs : Reg) : Instr := .sub rd (.const .zero) rs

/-- `MOV rd, rs`, an exact synonym of `MIN rd, rs, rs` (R70). -/
def mov (rd rs : Reg) : Instr := .min rd rs rs

/-- What the decoder reads from a row of spec/opcode_table.json given as a number of `nbits` bits, bit 0
the least significant bit of the one 32-bit command word (R61: one length, no further word). -/
def decodeTableWord (nbits w : Nat) : Option Instr :=
  let v := w % 2 ^ nbits
  if v < 2 ^ 32 then
    match decode (BitVec.ofNat 32 v) with
    | .ok i => some i
    | .error _ => none
  else none

end Sys2Proof
end

