-- ==== Sys2Proof/Config.lean ====
section
/-! DEFINITION. What one implementation of the block fixes: the fixed parameters of spec/00_scope.md
rule R3, and the OPEN parameters of spec/92_eei_decisions.md as opaque constants without a body, so that
no proof can lean on a value of theirs. -/

namespace Sys2Proof.Config

/-- `SQRT_ROUNDS`, the bound on the Newton rounds of the square root (R3, R151). -/
abbrev sqrtRounds : Nat := 6

/-- The most rounds the power's loop can take: the exponent's magnitude is at most 2^31, a number of at
most 32 bits (R115, R120). -/
abbrev powRounds : Nat := 32

/-- OPEN `RESET_R` (R3, R30, R180; D30, D35): the word a general register holds after a reset that
happens while the machine runs. FREE VALUE, one for each number of the reset, each register and each word
the register held before (so "clear", "keep" and anything else are admitted). -/
opaque resetWord : Nat → Fin 8 → Word → Word

/-- The implementation constant that bounds every latency from above (R185 b). FREE VALUE. -/
opaque latencyBound : Nat

/-- OPEN `LATENCY(cmd, operands)` before its bound is applied (R3, R185; D32). FREE VALUE. The
arguments are the request (is it a write, its word index, its data, 0 for a read) and the words of the
operands. -/
opaque latencyFree : Bool → BitVec 5 → Word → List Word → Nat

/-- `LATENCY(cmd, operands)`: finite, positive and at most `latencyBound + 1` (R3, R185 b). -/
def latency (write : Bool) (addr : BitVec 5) (wdata : Word) (operands : List Word) : Nat :=
  latencyFree write addr wdata operands % (latencyBound + 1) + 1

/-- How many cycles pass, after a response has been taken, before `req_ready` is raised: some finite
number (R47, R185 a). FREE VALUE, drawn anew for each response. -/
opaque readyDelay : Nat → Nat

/-- OPEN `TOFLOAT_ROUNDING`, host-side (R85; D34): whether the conversion of a raw value of more than
24 significant bits to a 32-bit float goes to the upper of its two neighbours. FREE VALUE. -/
opaque toFloatRoundsUp : Int → Bool

/-- OPEN `TEXT_TIE_RULE`, host-side (R86; D34): whether a tie in the fourth fractional digit goes to
the upper neighbour. FREE VALUE. -/
opaque textTieUp : Int → Bool

/-- What the text form of a negative raw value has before its number, host-side: the spelling of the sign is
not given (R86; N24), and it may be nothing. FREE VALUE. -/
opaque textSignBefore : Int → String

/-- What it has after its number, the same (R86; N24). FREE VALUE. -/
opaque textSignAfter : Int → String

end Sys2Proof.Config
end

