-- ==== Sys2Proof/Machine/State.lean ====
section
/-! DEFINITION. The state of the block: the architectural state of spec/10_state.md rule R20, the
host port's transaction in progress (spec/20_memory.md rules R47, R48), and two fields of the model's own
(the host's coming inputs and the counter of free values). -/

namespace Sys2Proof.Machine

/-- The errors a command can end with (R160). -/
inductive CmdError where
  | divideByZero
  | domainError
  | illegalCommand
  deriving DecidableEq, Repr

/-- How a command ended: what STATUS.ERR holds. Codes 4 … 7 never appear and have no term (R26, R160). -/
inductive CmdStatus where
  | ok
  | raised (e : CmdError)
  deriving DecidableEq, Repr

/-- The status of a response: a command status, or the rejection of the transaction by the port map.
Codes 5 … 7 are never produced and have no term (R53). -/
inductive PortStatus where
  | done (c : CmdStatus)
  | illegalAccess
  deriving DecidableEq, Repr

/-- A request: `{write, addr, wdata}`; `wdata` is ignored for a read (R47). -/
structure Request where
  write : Bool
  addr : BitVec 5
  wdata : Word
  deriving DecidableEq, Repr

/-- A response: `{rdata, status}` (R47). -/
structure Response where
  rdata : Word
  status : PortStatus
  deriving DecidableEq, Repr

/-- The host port: there is at most one transaction outstanding, by construction (R47). -/
inductive PortPhase where
  /-- nothing outstanding; `req_ready` is raised in `wait` cycles' time (R185 a) -/
  | idle (wait : Nat)
  /-- a request is accepted and its response comes in `left` cycles' time (R185 b) -/
  | busy (request : Request) (left : Nat)
  /-- the response is offered and not yet taken -/
  | responding (response : Response)
  deriving DecidableEq, Repr

/-- What the host can do to the block, seen transaction by transaction (R47, R180). -/
inductive HostEvent where
  /-- offer a request -/
  | request (r : Request)
  /-- take the response that is offered -/
  | takeResponse
  /-- assert `rst` -/
  | reset
  deriving DecidableEq, Repr

/-- The state. `regs`, `flagEq`, `flagLt` and `err` are the architectural state, complete (R20); the
constants k0 … k4 are hardwired and STATUS is read off the flags and `err` (Machine/Ops.lean,
Machine/Flags.lean). `port` is the transaction in progress (R47). `host` and `free` are the model's own. -/
structure State where
  /-- the words of r0 … r7 (R21) -/
  regs : Vector Word 8
  /-- flag EQ (R25) -/
  flagEq : Bool
  /-- flag LT (R25) -/
  flagLt : Bool
  /-- field STATUS.ERR (R26, R27) -/
  err : CmdStatus
  /-- the transaction outstanding at the host port (R47) -/
  port : PortPhase
  /-- MODEL'S OWN: what the host does from here on, first event first -/
  host : List HostEvent
  /-- MODEL'S OWN: how many free values the run has drawn -/
  free : Nat
  deriving DecidableEq, Repr

/-- Why the machine stops with a fault: it has no constructor. Nobody raises one, because the spec gives
every command and every transaction a defined effect (spec/93_implementation_defined.md: no behaviour
is unpredictable or undefined; R71, R54). Safe. -/
inductive Fault
  deriving DecidableEq, Repr

/-- Why an instruction has no meaning. -/
inductive Refusal where
  /-- Raised by an arm of exec that is still rejected by name; no arm is, so nobody raises it. Safe. -/
  | notModelled (mnemonic : String)
  deriving DecidableEq, Repr

/-- What every step and every meaning answers. -/
abbrev Outcome := Host.Outcome State Fault Refusal

/-- The machine right after reset: EQ, LT and STATUS.ERR are 0 and the block is ready to accept a
request (R30, R180). r0 … r7 are zero: DESIGN CHOICE, the spec leaves them unspecified
(notes/assumptions/1.md). Nothing is outstanding and the host has done nothing yet. -/
def State.reset : State where
  regs := Vector.replicate 8 0#32
  flagEq := false
  flagLt := false
  err := .ok
  port := .idle 0
  host := []
  free := 0

end Sys2Proof.Machine
end

