-- ==== Sys2Proof/Machine/Numeric.lean ====
section
/-! DEFINITION. Saturation, rounding, and the four arithmetic functions everything else is built from
(spec/00_scope.md rules R7, R9 to R11; spec/41_arithmetic.md rules R91 to R96). Arithmetic is over the
unbounded integers. -/

namespace Sys2Proof.Machine

/-- Saturation, the one overflow policy of the block (R9, R95). -/
def sat32 (v : Int) : Int :=
  if v > maxRaw then maxRaw else if v < minRaw then minRaw else v

/-- Rescale by an arithmetic right shift of 16: the floor of v / 65536 (R10). Lean's integer division by a
positive number is the floor. -/
def asr16 (v : Int) : Int := v / 65536

/-- Truncating division: the quotient rounded toward zero (R11, D18). -/
def tdiv (n d : Int) : Int := Int.tdiv n d

/-- Saturating addition (R91). -/
def fxAdd (a b : Int) : Int := sat32 (a + b)

/-- Saturating subtraction (R92). -/
def fxSub (a b : Int) : Int := sat32 (a - b)

/-- Saturating multiplication, the product rescaled toward minus infinity (R93). -/
def fxMul (a b : Int) : Int := sat32 (asr16 (a * b))

/-- Saturating division, the quotient truncated toward zero; DivideByZero exactly when the divisor is 0
(R94). -/
def fxDiv (a b : Int) : Except CmdError Int :=
  if b = 0 then .error .divideByZero else .ok (sat32 (tdiv (a * 65536) b))

end Sys2Proof.Machine
end

