-- ==== Sys2Proof/Machine/Ops.lean ====
section
/-! DEFINITION. The named operations on the state: reading and writing registers, ending a command,
raising an error, giving a response, and reset. -/

namespace Sys2Proof.Machine

/-- The hardwired word of a constant register (R22). -/
def constWord : ConstReg → Word
  | .zero => 0x00000000#32
  | .one => 0x00010000#32
  | .minusOne => 0xFFFF0000#32
  | .max => 0x7FFFFFFF#32
  | .min => 0x80000000#32

/-- The word of a register: the one place registers are read (R12, R21, R22). -/
def State.word (s : State) : Reg → Word
  | .gen n => s.regs[n]
  | .const k => constWord k

/-- Write a general register: the one place registers are written (R12, R21). -/
def State.setGen (s : State) (n : Fin 8) (w : Word) : State :=
  { s with regs := s.regs.set n w }

/-- Write STATUS.ERR (R27). -/
def State.setErr (s : State) (c : CmdStatus) : State := { s with err := c }

/-- TAKING AN ERROR: the command ends at once, STATUS.ERR becomes the error's code, and no register and
no flag is written (R13, R166). There is no handler, nothing is saved and there is no return (R168). -/
def State.raise (s : State) (e : CmdError) : State := s.setErr (.raised e)

/-- The end of a command whose function answered `r` (R71). The destination is checked before the
function's own error counts: a constant as destination is an illegal command (R65 check 4, R165). -/
def State.finish (s : State) (rd : Reg) (r : Except CmdError Int) : State :=
  match rd with
  | .const _ => s.raise .illegalCommand
  | .gen n =>
    match r with
    | .error e => s.raise e
    | .ok v => (s.setGen n (w32 v)).setErr .ok

/-- Offer a response to the request in progress (R47). -/
def State.respond (s : State) (r : Response) : State := { s with port := .responding r }

/-- Reset (R180): EQ, LT and STATUS.ERR become 0, a transaction in progress is abandoned and the block is
ready for a request; every general register holds a word the spec leaves open (R30), drawn free. -/
def State.resetBlock (s : State) : State :=
  { s with
    regs := Vector.ofFn fun n : Fin 8 => Config.resetWord s.free n s.regs[n]
    flagEq := false
    flagLt := false
    err := .ok
    port := .idle 0
    free := s.free + 1 }

end Sys2Proof.Machine
end

