-- ==== Sys2Proof/Machine/Operands.lean ====
section
/-! DEFINITION. Operands. A command has one operand form only, the register (R62), and every source is
read from the state before the command (R72). -/

namespace Sys2Proof.Machine

/-- `x[i]`: the raw value of a source register, the signed reading of its word (R12, R62). A plain
integer operand (the exponent of POW, the source of FROMINT) is the same reading of the same word
(R84, R115). -/
def State.raw (s : State) (r : Reg) : Int := s32 (s.word r)

/-- The words of a command's source registers, `rs1` first: the operands its latency may depend on (R3). -/
def State.operandWords (s : State) (i : Instr) : List Word := i.sources.map s.word

end Sys2Proof.Machine
end

