-- ==== Sys2Proof/Machine/Arithmetic.lean ====
section
/-! DEFINITION. The commands ADD, SUB, MUL, DIV (spec/41_arithmetic.md rules R90, R101 to R104). -/

namespace Sys2Proof.Machine

/-- ADD rd, rs1, rs2 (R101). -/
def execAdd (rd rs1 rs2 : Reg) (s : State) : Outcome :=
  .next (s.finish rd (.ok (fxAdd (s.raw rs1) (s.raw rs2))))

/-- SUB rd, rs1, rs2 (R102). -/
def execSub (rd rs1 rs2 : Reg) (s : State) : Outcome :=
  .next (s.finish rd (.ok (fxSub (s.raw rs1) (s.raw rs2))))

/-- MUL rd, rs1, rs2 (R103). -/
def execMul (rd rs1 rs2 : Reg) (s : State) : Outcome :=
  .next (s.finish rd (.ok (fxMul (s.raw rs1) (s.raw rs2))))

/-- DIV rd, rs1, rs2: raises DivideByZero when the divisor is 0 (R104, R161). -/
def execDiv (rd rs1 rs2 : Reg) (s : State) : Outcome :=
  .next (s.finish rd (fxDiv (s.raw rs1) (s.raw rs2)))

end Sys2Proof.Machine
end

