-- ==== Sys2Proof/Machine/Flags.lean ====
section
/-! DEFINITION. The flags EQ and LT, the status codes, and the STATUS word. -/

namespace Sys2Proof.Machine

/-- The numeric code of an error (R160). -/
def CmdError.code : CmdError → BitVec 3
  | .divideByZero => 1#3
  | .domainError => 2#3
  | .illegalCommand => 3#3

/-- The three bits of STATUS.ERR (R26, R160). -/
def CmdStatus.code : CmdStatus → BitVec 3
  | .ok => 0#3
  | .raised e => e.code

/-- The three bits of `rsp_status` (R48, R53). -/
def PortStatus.code : PortStatus → BitVec 3
  | .done c => c.code
  | .illegalAccess => 4#3

/-- Set EQ and LT to the outcome of comparing raw values `a` and `b`, signed; the command ends OK
(R25, R110, R111). -/
def State.setFlags (s : State) (a b : Int) : State :=
  { s with flagEq := decide (a = b), flagLt := decide (a < b), err := .ok }

/-- The STATUS word: ERR in bits 2:0, EQ bit 8, LT bit 9, every other bit hardwired 0 (R26). -/
def State.statusWord (s : State) : Word :=
  0#22 ++ BitVec.ofBool s.flagLt ++ BitVec.ofBool s.flagEq ++ 0#5 ++ s.err.code

end Sys2Proof.Machine
end

