-- ==== Sys2Proof/Machine/Compare.lean ====
section
/-! DEFINITION. CMP (spec/42_compare.md rules R110 to R112). -/

namespace Sys2Proof.Machine

/-- CMP rs1, rs2: writes EQ and LT and no register (R111). -/
def execCmp (rs1 rs2 : Reg) (s : State) : Outcome :=
  .next (s.setFlags (s.raw rs1) (s.raw rs2))

end Sys2Proof.Machine
end

