-- ==== Sys2Proof/Machine/Convert.lean ====
section
/-! DEFINITION. FROMINT (spec/40_conversion.md rules R81, R84). Construction from raw bits is the host's
register write and is in Machine/Port.lean (R80). -/

namespace Sys2Proof.Machine

/-- Convert an integer to Q16.16, saturating (R81, D17). -/
def fxFromInt (n : Int) : Int := sat32 (n * 65536)

/-- FROMINT rd, rs1 (R84). -/
def execFromint (rd rs1 : Reg) (s : State) : Outcome :=
  .next (s.finish rd (.ok (fxFromInt (s.raw rs1))))

end Sys2Proof.Machine
end

