-- ==== Sys2Proof/Machine/Select.lean ====
section
/-! DEFINITION. ABS, MIN, MAX, CLAMP, CLAMP01 (spec/44_select_clamp.md rules R125 to R137). -/

namespace Sys2Proof.Machine

/-- Negation: subtraction from zero, saturating (R125, D21). -/
def fxNeg (a : Int) : Int := fxSub 0 a

/-- Absolute value (R126). -/
def fxAbs (a : Int) : Int := if a < 0 then fxNeg a else a

/-- Minimum (R127). -/
def fxMin (a b : Int) : Int := if a < b then a else b

/-- Maximum (R128). -/
def fxMax (a b : Int) : Int := if a > b then a else b

/-- Clamp: the `lo` test first, then the `hi` test, with no check that lo ≤ hi (R129, R131, D22). -/
def fxClamp (a lo hi : Int) : Int := if a < lo then lo else if a > hi then hi else a

/-- Clamp into [0, 1] (R130). -/
def fxClamp01 (a : Int) : Int := fxClamp a 0 oneRaw

/-- ABS rd, rs1 (R132). -/
def execAbs (rd rs1 : Reg) (s : State) : Outcome :=
  .next (s.finish rd (.ok (fxAbs (s.raw rs1))))

/-- MIN rd, rs1, rs2 (R133). -/
def execMin (rd rs1 rs2 : Reg) (s : State) : Outcome :=
  .next (s.finish rd (.ok (fxMin (s.raw rs1) (s.raw rs2))))

/-- MAX rd, rs1, rs2 (R134). -/
def execMax (rd rs1 rs2 : Reg) (s : State) : Outcome :=
  .next (s.finish rd (.ok (fxMax (s.raw rs1) (s.raw rs2))))

/-- CLAMP rd, rs1, rs2, rs3 (R135). -/
def execClamp (rd rs1 rs2 rs3 : Reg) (s : State) : Outcome :=
  .next (s.finish rd (.ok (fxClamp (s.raw rs1) (s.raw rs2) (s.raw rs3))))

/-- CLAMP01 rd, rs1 (R136). -/
def execClamp01 (rd rs1 : Reg) (s : State) : Outcome :=
  .next (s.finish rd (.ok (fxClamp01 (s.raw rs1))))

end Sys2Proof.Machine
end

