-- ==== Sys2Proof/Machine/Interpolate.lean ====
section
/-! DEFINITION. LERP and LERPU (spec/45_interpolate.md rules R140 to R145). -/

namespace Sys2Proof.Machine

/-- Interpolation without clamping: `a + (b − a) × t`, each of the three operations the block's own
saturating one, in this order (R142). -/
def fxLerpu (a b t : Int) : Int := fxAdd a (fxMul (fxSub b a) t)

/-- Interpolation with `t` clamped to [0, 1] (R141). -/
def fxLerp (a b t : Int) : Int := fxLerpu a b (fxClamp01 t)

/-- LERP rd, rs1, rs2, rs3 (R144). -/
def execLerp (rd rs1 rs2 rs3 : Reg) (s : State) : Outcome :=
  .next (s.finish rd (.ok (fxLerp (s.raw rs1) (s.raw rs2) (s.raw rs3))))

/-- LERPU rd, rs1, rs2, rs3 (R145). -/
def execLerpu (rd rs1 rs2 rs3 : Reg) (s : State) : Outcome :=
  .next (s.finish rd (.ok (fxLerpu (s.raw rs1) (s.raw rs2) (s.raw rs3))))

end Sys2Proof.Machine
end

