-- ==== Sys2Proof/Machine/Power.lean ====
section
/-! DEFINITION. POW (spec/43_power.md rules R115 to R118). -/

namespace Sys2Proof.Machine

/-- The loop of rule R116, right to left: multiply the accumulator into the result where the exponent's
low bit is 1, square the accumulator, halve the exponent. `fuel` bounds the rounds; 32 is enough for
every exponent of a 32-bit word (R120; Laws/Numeric.lean proves it). -/
def powLoop (fuel : Nat) (result acc : Int) (e : Nat) : Int :=
  match fuel with
  | 0 => result
  | fuel + 1 =>
    if e = 0 then result
    else powLoop fuel (if e % 2 = 1 then fxMul result acc else result) (fxMul acc acc) (e / 2)

/-- The power to the magnitude of the exponent, which is computed without overflow (R115, R116). -/
def powMagnitude (base n : Int) : Int := powLoop Config.powRounds oneRaw base n.natAbs

/-- Integer power; a negative exponent inverts the positive power (R116, R118). -/
def fxPow (base n : Int) : Except CmdError Int :=
  if n < 0 then fxDiv oneRaw (powMagnitude base n) else .ok (powMagnitude base n)

/-- POW rd, rs1, rs2: `rs2` is read as a plain integer; raises DivideByZero when it is negative and the
positive power is 0 (R117, R161). -/
def execPow (rd rs1 rs2 : Reg) (s : State) : Outcome :=
  .next (s.finish rd (fxPow (s.raw rs1) (s.raw rs2)))

end Sys2Proof.Machine
end

