-- ==== Sys2Proof/Machine/SquareRoot.lean ====
section
/-! DEFINITION. SQRT (spec/46_sqrt.md rules R150 to R154). -/

namespace Sys2Proof.Machine

/-- The Newton rounds of rule R151: at most `rounds`, with the early exit (R152), the halving of R154
(floor), and the block's own division and addition. An error of the division would be the function's
(R15); rule R153 says there is none. -/
def sqrtLoop (rounds : Nat) (a est : Int) : Except CmdError Int :=
  match rounds with
  | 0 => .ok est
  | rounds + 1 =>
    match fxDiv a est with
    | .error e => .error e
    | .ok q =>
      let next := fxAdd est q / 2
      if next = est then .ok next else sqrtLoop rounds a next

/-- The square root: DomainError for a negative operand, 0 for 0, else the rounds seeded with the operand
itself (R151). -/
def fxSqrt (a : Int) : Except CmdError Int :=
  if a < 0 then .error .domainError
  else if a = 0 then .ok 0
  else sqrtLoop Config.sqrtRounds a a

/-- SQRT rd, rs1: raises DomainError when the operand is negative (R150, R162). -/
def execSqrt (rd rs1 : Reg) (s : State) : Outcome :=
  .next (s.finish rd (fxSqrt (s.raw rs1)))

end Sys2Proof.Machine
end

