-- ==== Sys2Proof/Machine/Dispatch.lean ====
section
/-! DEFINITION. One arm for each command, each a direct call of its meaning. -/

namespace Sys2Proof.Machine

def exec (i : Instr) (s : State) : Host.Outcome State Fault Refusal :=
  match i with
  | .add rd rs1 rs2 => Sys2Proof.Machine.execAdd rd rs1 rs2 s
  | .sub rd rs1 rs2 => Sys2Proof.Machine.execSub rd rs1 rs2 s
  | .mul rd rs1 rs2 => Sys2Proof.Machine.execMul rd rs1 rs2 s
  | .div rd rs1 rs2 => Sys2Proof.Machine.execDiv rd rs1 rs2 s
  | .pow rd rs1 rs2 => Sys2Proof.Machine.execPow rd rs1 rs2 s
  | .sqrt rd rs1 => Sys2Proof.Machine.execSqrt rd rs1 s
  | .abs rd rs1 => Sys2Proof.Machine.execAbs rd rs1 s
  | .min rd rs1 rs2 => Sys2Proof.Machine.execMin rd rs1 rs2 s
  | .max rd rs1 rs2 => Sys2Proof.Machine.execMax rd rs1 rs2 s
  | .clamp rd rs1 rs2 rs3 => Sys2Proof.Machine.execClamp rd rs1 rs2 rs3 s
  | .clamp01 rd rs1 => Sys2Proof.Machine.execClamp01 rd rs1 s
  | .lerp rd rs1 rs2 rs3 => Sys2Proof.Machine.execLerp rd rs1 rs2 rs3 s
  | .lerpu rd rs1 rs2 rs3 => Sys2Proof.Machine.execLerpu rd rs1 rs2 rs3 s
  | .cmp rs1 rs2 => Sys2Proof.Machine.execCmp rs1 rs2 s
  | .fromint rd rs1 => Sys2Proof.Machine.execFromint rd rs1 s

end Sys2Proof.Machine
end

