-- ==== Sys2Proof/Machine/Port.lean ====
section
/-! DEFINITION. The host port: the address map, executing a command word, one transaction, and what the
host's next event does (spec/20_memory.md, spec/30_encoding.md rule R71, spec/70_reset_and_hazards.md
rule R180). -/

namespace Sys2Proof.Machine

/-- What a word index of the port names (R41). -/
inductive Location where
  | reg (r : Reg)
  | cmd
  | status
  | reserved
  deriving DecidableEq, Repr

/-- The port address map (R41). -/
def location (addr : BitVec 5) : Location :=
  match regOfIndex addr.toNat with
  | some r => .reg r
  | none =>
    if addr = 0x10#5 then .cmd else if addr = 0x11#5 then .status else .reserved

/-- The response to a rejected transaction (R45, R53). -/
def rejected : Response := ⟨0#32, .illegalAccess⟩

/-- The response to a read: it changes no state (R45, R46, R54). -/
def State.readPort (s : State) (addr : BitVec 5) : Response :=
  match location addr with
  | .reg r => ⟨s.word r, .done .ok⟩
  | .status => ⟨s.statusWord, .done .ok⟩
  | .cmd => rejected
  | .reserved => rejected

/-- `Execute(S, w)`: the effect of a command word (R71). A word the decoder rejects is an illegal command
and raises IllegalCommand, whatever the registers hold (R65, R163). The command's status is what
STATUS.ERR holds afterwards (R27, R53). -/
def execute (w : Word) (s : State) : Outcome :=
  match decode w with
  | .ok i => exec i s
  | .error _ => .next (s.raise .illegalCommand)

/-- The response to a write of CMD: the command's status, data 0 (R53, R54). -/
def State.answerCommand (s : State) : State := s.respond ⟨0#32, .done s.err⟩

/-- One transaction, performed whole: its effect and its response (R45, R54). -/
def transact (r : Request) (s : State) : Outcome :=
  if r.write then
    match location r.addr with
    | .reg (.gen n) => .next ((s.setGen n r.wdata).respond ⟨0#32, .done .ok⟩)
    | .cmd =>
      match execute r.wdata s with
      | .next t => .next t.answerCommand
      | .fault f => .fault f
      | .refused x => .refused x
    | .reg (.const _) => .next (s.respond rejected)
    | .status => .next (s.respond rejected)
    | .reserved => .next (s.respond rejected)
  else .next (s.respond (s.readPort r.addr))

/-- The host's events that are still to come. -/
def State.setHost (s : State) (h : List HostEvent) : State := { s with host := h }

/-- Put the port in a phase. -/
def State.setPort (s : State) (p : PortPhase) : State := { s with port := p }

/-- What the host's next event does, `rest` being the events after it.
A request is accepted only when no transaction is outstanding, and a response can be taken only when one
is offered; otherwise the host is held and nothing moves (R47; spec/93_implementation_defined.md V7).
Reset is a single event (R180). DESIGN CHOICE: a response taken by a step leaves the port ready at once
(`.idle 0`), whatever its status, where R185 a says "within a finite number of cycles" and the pins draw a free
wait (notes/assumptions/25.md). -/
def hostEvent (e : HostEvent) (rest : List HostEvent) (s : State) : Outcome :=
  match e with
  | .reset => .next (s.resetBlock.setHost rest)
  | .request r =>
    match s.port with
    | .idle _ => transact r (s.setHost rest)
    | .busy _ _ => .next s
    | .responding _ => .next s
  | .takeResponse =>
    match s.port with
    | .responding _ => .next ((s.setPort (.idle 0)).setHost rest)
    | .idle _ => .next s
    | .busy _ _ => .next s

/-- One step at the level of transactions: a transaction in progress is brought to its response; else the
host's next event happens; else the block is idle and nothing changes (R29, R47, R171, R172, R180). -/
def advance (s : State) : Outcome :=
  match s.port with
  | .busy r _ => transact r s
  | .idle _ =>
    match s.host with
    | [] => .next s
    | e :: rest => hostEvent e rest s
  | .responding _ =>
    match s.host with
    | [] => .next s
    | e :: rest => hostEvent e rest s

/-- The CMD write that carries a command word (R60). -/
def commandRequest (w : Word) : Request := ⟨true, 0x10#5, w⟩

end Sys2Proof.Machine
end

