-- ==== Sys2Proof/Machine/Step.lean ====
section
/-! DEFINITION. The step function, one transaction or other event of the host, and the placing of a
command word where the next step performs it. -/

namespace Sys2Proof.Machine

/-- One step of the block (Machine/Port.lean `advance`). -/
def step (s : State) : Host.Outcome State Fault Refusal := advance s

/-- The block fetches nothing (R24): a command reaches it as the data of the host's write to CMD. So the
host's next event is made that write, ahead of whatever it was to do, and the port is made ready for it
(no transaction outstanding). Nothing else changes. -/
def State.withFetchWord (s : State) (nbits w : Nat) : State :=
  { s with
    port := .idle 0
    host := .request (commandRequest (BitVec.ofNat 32 (w % 2 ^ nbits))) :: s.host }

end Sys2Proof.Machine
end

