-- ==== Sys2Proof/Machine/Assembler.lean ====
section
/-! DEFINITION. The notation of host scripts: register names, mnemonics, pseudo-instructions and the
lines for port transactions (spec/30_encoding.md rules R69, R70). It is notation only; the step does not
use it. -/

namespace Sys2Proof.Machine

/-- The register a name denotes, the aliases of k0 … k4 included (R22, R69). -/
def regOfName (name : String) : Option Reg :=
  match name with
  | "r0" => some (.gen 0)
  | "r1" => some (.gen 1)
  | "r2" => some (.gen 2)
  | "r3" => some (.gen 3)
  | "r4" => some (.gen 4)
  | "r5" => some (.gen 5)
  | "r6" => some (.gen 6)
  | "r7" => some (.gen 7)
  | "k0" => some (.const .zero)
  | "k1" => some (.const .one)
  | "k2" => some (.const .minusOne)
  | "k3" => some (.const .max)
  | "k4" => some (.const .min)
  | "kzero" => some (.const .zero)
  | "kone" => some (.const .one)
  | "kmone" => some (.const .minusOne)
  | "kmax" => some (.const .max)
  | "kmin" => some (.const .min)
  | _ => none

/-- A command line's mnemonic and operands, as a command (R69); NEG and MOV stand for their expansions
(R70). A mnemonic with another number of operands than rule R63 gives it is no line. -/
def assembleRegs (mnemonic : String) (operands : List Reg) : Option Instr :=
  match mnemonic, operands with
  | "ADD", [d, a, b] => some (.add d a b)
  | "SUB", [d, a, b] => some (.sub d a b)
  | "MUL", [d, a, b] => some (.mul d a b)
  | "DIV", [d, a, b] => some (.div d a b)
  | "POW", [d, a, b] => some (.pow d a b)
  | "SQRT", [d, a] => some (.sqrt d a)
  | "ABS", [d, a] => some (.abs d a)
  | "MIN", [d, a, b] => some (.min d a b)
  | "MAX", [d, a, b] => some (.max d a b)
  | "CLAMP", [d, a, b, c] => some (.clamp d a b c)
  | "CLAMP01", [d, a] => some (.clamp01 d a)
  | "LERP", [d, a, b, c] => some (.lerp d a b c)
  | "LERPU", [d, a, b, c] => some (.lerpu d a b c)
  | "CMP", [a, b] => some (.cmp a b)
  | "FROMINT", [d, a] => some (.fromint d a)
  | "NEG", [d, a] => some (neg d a)
  | "MOV", [d, a] => some (mov d a)
  | _, _ => none

/-- The same from the operands' names; a line whose destination is no general register does not assemble
to a legal command and is none (R65, R69). -/
def assemble (mnemonic : String) (operands : List String) : Option Instr :=
  match operands.mapM regOfName with
  | none => none
  | some regs =>
    match assembleRegs mnemonic regs with
    | none => none
    | some i => if i.wf then some i else none

/-- A line of a host script (R69). -/
inductive Line where
  /-- a command, issued as a write of its word to CMD -/
  | command (i : Instr)
  /-- `CMDW w`: a write of the given word to CMD -/
  | cmdw (w : Word)
  /-- `WR rN, w` -/
  | wr (n : Fin 8) (w : Word)
  /-- `RD rN` and `RD kN` -/
  | rd (r : Reg)
  /-- `RD STATUS` -/
  | rdStatus
  /-- `WR 0xNN, w`, the port word index given as a number -/
  | wrAt (addr : BitVec 5) (w : Word)
  /-- `RD 0xNN` -/
  | rdAt (addr : BitVec 5)
  deriving DecidableEq, Repr

/-- The port transaction a line stands for (R69, R14, R80). -/
def Line.request : Line → Request
  | .command i => commandRequest (encode i)
  | .cmdw w => commandRequest w
  | .wr n w => ⟨true, BitVec.ofNat 5 n.val, w⟩
  | .rd r => ⟨false, BitVec.ofNat 5 (regIndex r), 0#32⟩
  | .rdStatus => ⟨false, 0x11#5, 0#32⟩
  | .wrAt addr w => ⟨true, addr, w⟩
  | .rdAt addr => ⟨false, addr, 0#32⟩

/-- The host's events of a script: each line's request, and then the taking of its response (R47). -/
def scriptEvents (lines : List Line) : List HostEvent :=
  lines.flatMap fun l => [.request l.request, .takeResponse]

end Sys2Proof.Machine
end

