-- ==== Sys2Proof/Machine/HostSide.lean ====
section
/-! DEFINITION. The host-side conversions: which raw word a number becomes and what number a raw word is
(spec/40_conversion.md rules R82, R83, R85, R86, R88; spec/00_scope.md section 3.2 places them outside the
block). No step uses them. Numbers are given as a fraction `num / den` with `den` positive, the exact
value of a finite float or of a decimal literal. -/

namespace Sys2Proof.Machine

/-- Construction from a number: scaled by 65536 and truncated toward zero (R82, R83). Out of range it is
none: the source gives no result, and a host model refuses
(spec/93_implementation_defined.md U6, U7). The range is that of the truncated product, as R82 has it for a
float; that it is so for a decimal literal too is a DESIGN CHOICE, R83 not saying what its range is
(notes/assumptions/23.md). -/
def rawOfFraction (num : Int) (den : Nat) : Option Int :=
  let v := Int.tdiv (num * 65536) den
  if minRaw ≤ v ∧ v ≤ maxRaw then some v else none

/-- How many low bits of a raw value a 32-bit float, with its 24 significant bits, cannot hold (R85). -/
def excessBits (raw : Int) : Nat :=
  if raw = 0 then 0 else raw.natAbs.log2 + 1 - 24

/-- The raw value of the 32-bit float that a raw word converts to: `raw / 65536.0`, exact up to 24
significant bits and otherwise one of the two neighbours, the source not saying which (R85). -/
def rawOfFloat (raw : Int) : Int :=
  let unit : Int := 2 ^ excessBits raw
  let lower := raw / unit * unit
  if lower = raw then raw
  else if Config.toFloatRoundsUp raw then lower + unit else lower

/-- The text form's number, in ten-thousandths: the float of R85 rounded to four fractional digits, a tie
going either way (R86). -/
def textTenThousandths (raw : Int) : Int :=
  let scaled := rawOfFloat raw * 10000
  let lower := scaled / 65536
  let rest := scaled % 65536
  if rest < 32768 then lower
  else if rest > 32768 then lower + 1
  else if Config.textTieUp raw then lower + 1 else lower

/-- Four decimal digits. -/
def fourDigits (n : Nat) : String :=
  toString (n / 1000 % 10) ++ toString (n / 100 % 10) ++ toString (n / 10 % 10) ++ toString (n % 10)

/-- The number of the text form, from its magnitude in ten-thousandths: exactly four fractional digits after a
decimal point, no thousands separator (R86). DESIGN CHOICE, the leading zero and the width of the integer part
being open (N24): the integer part has no padding, and is 0 for a value below 1 (notes/assumptions/22.md). -/
def textOfMagnitude (n : Nat) : String :=
  toString (n / 10000) ++ "." ++ fourDigits (n % 10000)

/-- A spelling of the sign: it holds no digit and no decimal point, which are the number's (R86). -/
def signText (s : String) : String :=
  String.ofList (s.toList.filter fun c => !(c.isDigit || c == '.'))

/-- The text form: the number, and for a negative value the spelling of its sign, which alone is left open and
stands before the number, after it or nowhere (R86; spec/93_implementation_defined.md U9). -/
def textForm (raw : Int) : String :=
  let number := textOfMagnitude (textTenThousandths raw).natAbs
  if rawOfFloat raw < 0 then
    signText (Config.textSignBefore raw) ++ number ++ signText (Config.textSignAfter raw)
  else number

end Sys2Proof.Machine
end

