-- ==== Sys2Proof/Machine/Pins.lean ====
section
/-! DEFINITION. The block at its pins, one clock cycle at a time, on the same State as the transaction
level (spec/20_memory.md rules R47, R48; spec/70_reset_and_hazards.md rules R180, R184, R185).
`State.host` plays no part here: the host is the pins' inputs. -/

namespace Sys2Proof.Machine

/-- The input pins as sampled at one rising edge of `clk` (R48). -/
structure PinsIn where
  rst : Bool
  reqValid : Bool
  reqWrite : Bool
  reqAddr : BitVec 5
  reqWdata : Word
  rspReady : Bool
  deriving DecidableEq, Repr

/-- The output pins of one cycle (R48). `rsp` is `some` exactly when `rsp_valid` is 1 and then holds
`rsp_rdata` and `rsp_status`; the spec gives these two pins no value while `rsp_valid` is 0. -/
structure PinsOut where
  reqReady : Bool
  rsp : Option Response
  deriving DecidableEq, Repr

/-- The request on the pins (R47, R48). -/
def PinsIn.request (i : PinsIn) : Request := ⟨i.reqWrite, i.reqAddr, i.reqWdata⟩

/-- The outputs of a cycle: `req_ready` and `rsp_valid` are 0 while `rst` is 1 (R48, R180); a request is taken
only when none is outstanding (R47). DESIGN CHOICE: with `cycle`, `req_ready` once raised stays 1 until a
request is accepted (notes/assumptions/20.md), and an offered response stays on the pins until it is taken
(notes/assumptions/21.md), both unless `rst` is 1. -/
def State.pinsOut (s : State) (i : PinsIn) : PinsOut :=
  if i.rst then ⟨false, none⟩
  else match s.port with
    | .idle 0 => ⟨true, none⟩
    | .idle (_ + 1) => ⟨false, none⟩
    | .busy _ _ => ⟨false, none⟩
    | .responding r => ⟨false, some r⟩

/-- The operands of a request: for a write of CMD the words its command's sources hold (R3). -/
def State.requestOperands (s : State) (r : Request) : List Word :=
  if r.write = true ∧ r.addr = 0x10#5 then
    match decode r.wdata with
    | .ok i => s.operandWords i
    | .error _ => []
  else []

/-- The data a request carries: a read carries none, its `wdata` is ignored (R47). -/
def Request.data (r : Request) : Word := if r.write then r.wdata else 0#32

/-- `LATENCY` of a request in a state: of the command and its operands for a write of CMD (R3, R185). That of a
read does not depend on its `wdata` (R47). -/
def State.latencyOf (s : State) (r : Request) : Nat :=
  Config.latency r.write r.addr r.data (s.requestOperands r)

/-- Let one of the `left` cycles that a transaction still takes pass: in the last one the transaction
happens, whole (R29, R184), and its response is offered from the next cycle on. DESIGN CHOICE: that a register
write, too, takes effect in the last cycle; R47 says only "somewhere between its request and its response",
and R29 says "at its end" of commands only (notes/assumptions/24.md). -/
def passCycle (r : Request) (left : Nat) (s : State) : Outcome :=
  if left ≤ 1 then transact r s else .next (s.setPort (.busy r (left - 1)))

/-- A command error leaves the block ready at once (R166 e); after any other response `req_ready` comes
back in a finite time that is left open (R185 a). -/
def State.readyAfter (s : State) (r : Response) : Nat :=
  match r.status with
  | .done (.raised _) => 0
  | .done .ok => Config.readyDelay s.free
  | .illegalAccess => Config.readyDelay s.free

/-- Take the response: the port becomes idle. -/
def State.taken (s : State) (r : Response) : State :=
  { s with port := .idle (s.readyAfter r), free := s.free + 1 }

/-- One clock cycle (R48, R180, R185). DESIGN CHOICE, where the rules leave it open: a ready port with no
request offered stays ready, so `req_ready` is not lowered again (notes/assumptions/20.md), and an offered
response that is not taken stays offered, the same (notes/assumptions/21.md). -/
def cycle (s : State) (i : PinsIn) : Outcome :=
  if i.rst then .next s.resetBlock
  else match s.port with
    | .idle 0 => if i.reqValid then passCycle i.request (s.latencyOf i.request) s else .next s
    | .idle (wait + 1) => .next (s.setPort (.idle wait))
    | .busy r left => passCycle r left s
    | .responding r => if i.rspReady then .next (s.taken r) else .next s

/-- The cycles of a list of samples, one after another. -/
def cycles (s : State) : List PinsIn → Outcome
  | [] => .next s
  | i :: rest =>
    match cycle s i with
    | .next t => cycles t rest
    | .fault f => .fault f
    | .refused x => .refused x

end Sys2Proof.Machine
end

