-- ==== Sys2Proof/Safety.lean ====
section
/-! DEFINITION. The terms the statements use: frames, the invariant of the block, the legality rule and
the power loop as relations, and what a run without a stop is. -/

namespace Sys2Proof

open Machine

/-- Clipping to the 32-bit range, said with minimum and maximum (R9). -/
def clip (v : Int) : Int := max (-2147483648) (min 2147483647 v)

/-- `q` is the floor of `p / 65536` (R10). -/
def IsFloorQuotient (p q : Int) : Prop := q * 65536 ≤ p ∧ p < (q + 1) * 65536

/-- `q` is `n / d` rounded toward zero: its magnitude is the whole quotient of the magnitudes, and its
sign, if it is not 0, is the sign of the exact quotient (R11). -/
def IsTruncatedQuotient (n d q : Int) : Prop :=
  q.natAbs = n.natAbs / d.natAbs ∧ (0 < q → 0 < n * d) ∧ (q < 0 → n * d < 0)

/-- What no command and no register write touches: the port, the host's events, the free values' counter. -/
def SameOutside (s t : State) : Prop := t.port = s.port ∧ t.host = s.host ∧ t.free = s.free

/-- Both flags are as they were. -/
def SameFlags (s t : State) : Prop := t.flagEq = s.flagEq ∧ t.flagLt = s.flagLt

/-- Every general and constant register is as it was. -/
def SameRegs (s t : State) : Prop := ∀ r : Reg, t.word r = s.word r

/-- The frame of a command that ends OK and writes general register `n`: no other register, no flag and
nothing outside the command's reach changes, and STATUS.ERR is 0 (R71). -/
def WritesOnly (n : Fin 8) (s t : State) : Prop :=
  (∀ r : Reg, r ≠ .gen n → t.word r = s.word r) ∧ SameFlags s t ∧ SameOutside s t ∧ t.err = .ok

/-- The frame of a command that raises `e`: STATUS.ERR holds `e` and nothing else changes (R166, R167). -/
def RaisesOnly (e : CmdError) (s t : State) : Prop :=
  SameRegs s t ∧ SameFlags s t ∧ SameOutside s t ∧ t.err = .raised e

/-- The words of rule R65, check by check, as a proposition on the bit fields: `w[7:0]`, the opcode, the
source fields that the opcode uses and those it does not, and `rd`. -/
structure LegalCommand (w : Word) : Prop where
  zeroByte : w.toNat % 2 ^ 8 = 0
  opcode : 0x01 ≤ w.toNat / 2 ^ 24 ∧ w.toNat / 2 ^ 24 ≤ 0x0F
  source1 : w.toNat / 2 ^ 16 % 16 ≤ 12
  source2 : if w.toNat / 2 ^ 24 ∈ [0x06, 0x07, 0x0B, 0x0F] then w.toNat / 2 ^ 12 % 16 = 0
    else w.toNat / 2 ^ 12 % 16 ≤ 12
  source3 : if w.toNat / 2 ^ 24 ∈ [0x0A, 0x0C, 0x0D] then w.toNat / 2 ^ 8 % 16 ≤ 12
    else w.toNat / 2 ^ 8 % 16 = 0
  destination : if w.toNat / 2 ^ 24 = 0x0E then w.toNat / 2 ^ 20 % 16 = 0
    else w.toNat / 2 ^ 20 % 16 ≤ 7

/-- The loop of rule R116 as a relation, with no bound on the rounds: started with `result`, `acc` and
`e`, it ends with `v`. -/
inductive PowerLoop : Int → Int → Nat → Int → Prop where
  | done (result acc : Int) : PowerLoop result acc 0 result
  | even (result acc v : Int) (e : Nat) : e ≠ 0 → e % 2 = 0 →
      PowerLoop result (fxMul acc acc) (e / 2) v → PowerLoop result acc e v
  | odd (result acc v : Int) (e : Nat) : e % 2 = 1 →
      PowerLoop (fxMul result acc) (fxMul acc acc) (e / 2) v → PowerLoop result acc e v

/-- One Newton round of rule R152 on the raw values: `floor(fx_add(est, fx_div(a, est)) / 2)`, for an
`est` that is not 0. -/
def newtonRound (a est : Int) : Int := clip (est + clip (Int.tdiv (a * 65536) est)) / 2

/-- EQ and LT are never both 1 (R25, R112). -/
def FlagsExclusive (s : State) : Prop := ¬(s.flagEq = true ∧ s.flagLt = true)

/-- An offered response carries data 0 unless its status is OK, and a command error on it is the error
that STATUS.ERR holds (R27, R45, R53, R166 d). -/
def OfferedResponseAgrees (s : State) : Prop :=
  ∀ r, s.port = .responding r →
    (r.status ≠ .done .ok → r.rdata = 0#32) ∧ (∀ e, r.status = .done (.raised e) → s.err = .raised e)

/-- The invariant of the block. -/
structure Inv (s : State) : Prop where
  flags : FlagsExclusive s
  response : OfferedResponseAgrees s

/-- The latency that a transaction in progress can still have is within the bound of R185 b. -/
def BusyWithinBound (s : State) : Prop :=
  ∀ r left, s.port = .busy r left → left ≤ Config.latencyBound

/-- The part of the state that rule R20 calls the complete architectural state is the same. -/
def SameArchitecture (s t : State) : Prop := SameRegs s t ∧ SameFlags s t ∧ t.err = s.err

end Sys2Proof
end

