-- ==== Sys2Proof/Certificates/Slice0/Obligations.lean ====
section
/-! DEFINITION. The statements about the block, from the numbered rules of the spec. `t.word r` is the word
of register `r` in state `t`, `s32` its signed reading; `clip`, the quotients, the frames and the power's
loop are in Safety.lean. -/

open Sys2Proof Sys2Proof.Machine

/-! ### Encoding -/

/-- Words of the spec's own examples decode to the commands they stand for (R69, R70, R101 to R150). -/
def Obligations.ExampleWordsDecode : Prop :=
  decode 0x01201000#32 = .ok (.add (.gen 2) (.gen 0) (.gen 1)) ∧
  decode 0x06100000#32 = .ok (.sqrt (.gen 1) (.gen 0)) ∧
  decode 0x0C301200#32 = .ok (.lerp (.gen 3) (.gen 0) (.gen 1) (.gen 2)) ∧
  decode 0x0E009000#32 = .ok (.cmp (.gen 0) (.const .one)) ∧
  decode 0x08199000#32 = .ok (mov (.gen 1) (.const .one))

/-- Decoding the encoding of any well-formed command gives the command back, every operand at every value
(R60, R63). -/
def Obligations.DecodeOfEncodeIsTheCommand : Prop :=
  ∀ i : Instr, i.wf = true → decode (encode i) = .ok i

/-- Each word has at most one meaning: a word that decodes to a command is that command's encoding, bit for
bit, and the command is well formed (R60, R63, R65). -/
def Obligations.DecodedWordIsTheEncoding : Prop :=
  ∀ (w : Word) (i : Instr), decode w = .ok i → encode i = w ∧ i.wf = true

/-- The decoder accepts exactly the legal command words of rule R65. -/
def Obligations.DecoderAcceptsExactlyTheLegalWords : Prop :=
  ∀ w : Word, (∃ i, decode w = .ok i) ↔ LegalCommand w

/-- A legal word spells its command's row of rule R64 (`w AND mask = match`) and no row of another
opcode. -/
def Obligations.LegalWordSpellsItsRowOnly : Prop :=
  ∀ (w : Word) (i : Instr), decode w = .ok i →
    w &&& (rowOf i).mask = (rowOf i).pattern ∧
    ∀ j : Instr, opcode j ≠ opcode i → w &&& (rowOf j).mask ≠ (rowOf j).pattern

/-- A command word raises IllegalCommand exactly when it is not a legal command, and it then changes
STATUS.ERR only, whatever the registers hold (R163, R65, R71). -/
def Obligations.IllegalCommandIffWordNotLegal : Prop :=
  ∀ (w : Word) (s : State), ∃ t, execute w s = .next t ∧
    (t.err = .raised .illegalCommand ↔ ¬ LegalCommand w) ∧
    (¬ LegalCommand w → RaisesOnly .illegalCommand s t)

/-- A command whose destination is a constant register is not well formed, its word is not legal, and
executing that word raises IllegalCommand and changes nothing else (R22, R65, R66). That `exec` of such a
command, which no legal word spells, does the same is the model's reading (notes/assumptions/7.md). -/
def Obligations.ConstantDestinationIsIllegal : Prop :=
  ∀ (i : Instr) (k : ConstReg) (s : State), i.dest = some (.const k) →
    i.wf = false ∧ ¬ LegalCommand (encode i) ∧
    ∃ t, exec i s = .next t ∧ execute (encode i) s = .next t ∧ RaisesOnly .illegalCommand s t

/-! ### The commands -/

/-- ADD: opcode 0x01; the sum, clipped; only the destination changes; no error (R91, R101). -/
def Obligations.AddGivesTheClippedSum : Prop :=
  ∀ (n : Fin 8) (a b : Reg) (s : State),
    decode (wordOfFields 0x01 n (regIndex a) (regIndex b) 0) = .ok (.add (.gen n) a b) ∧
    ∃ t, exec (.add (.gen n) a b) s = .next t ∧
      s32 (t.word (.gen n)) = clip (s32 (s.word a) + s32 (s.word b)) ∧ WritesOnly n s t

/-- SUB: opcode 0x02; the difference, clipped; only the destination changes; no error (R92, R102). -/
def Obligations.SubGivesTheClippedDifference : Prop :=
  ∀ (n : Fin 8) (a b : Reg) (s : State),
    decode (wordOfFields 0x02 n (regIndex a) (regIndex b) 0) = .ok (.sub (.gen n) a b) ∧
    ∃ t, exec (.sub (.gen n) a b) s = .next t ∧
      s32 (t.word (.gen n)) = clip (s32 (s.word a) - s32 (s.word b)) ∧ WritesOnly n s t

/-- MUL: opcode 0x03; the floor of the product over 65536, clipped; only the destination changes; no error
(R93, R103). -/
def Obligations.MulGivesTheClippedFloorOfTheProduct : Prop :=
  ∀ (n : Fin 8) (a b : Reg) (s : State),
    decode (wordOfFields 0x03 n (regIndex a) (regIndex b) 0) = .ok (.mul (.gen n) a b) ∧
    ∃ t q, exec (.mul (.gen n) a b) s = .next t ∧
      IsFloorQuotient (s32 (s.word a) * s32 (s.word b)) q ∧
      s32 (t.word (.gen n)) = clip q ∧ WritesOnly n s t

/-- DIV: opcode 0x04; with a divisor that is not 0 it completes with the quotient of a × 65536 truncated
toward zero, clipped; with a divisor 0 it raises DivideByZero and changes nothing else (R94, R104). -/
def Obligations.DivGivesTheClippedTruncatedQuotient : Prop :=
  ∀ (n : Fin 8) (a b : Reg) (s : State),
    decode (wordOfFields 0x04 n (regIndex a) (regIndex b) 0) = .ok (.div (.gen n) a b) ∧
    (s32 (s.word b) ≠ 0 → ∃ t q, exec (.div (.gen n) a b) s = .next t ∧
      IsTruncatedQuotient (s32 (s.word a) * 65536) (s32 (s.word b)) q ∧
      s32 (t.word (.gen n)) = clip q ∧ WritesOnly n s t) ∧
    (s32 (s.word b) = 0 → ∃ t, exec (.div (.gen n) a b) s = .next t ∧ RaisesOnly .divideByZero s t)

/-- POW: opcode 0x05; the loop of rule R116 ends for every exponent, with a positive power `v`. With an exponent
that is not negative the command completes with `v`. With a negative one it completes with 2^32 over `v`,
truncated toward zero and clipped, if `v` is not 0, and raises DivideByZero and changes nothing else if it
is 0 (R116, R117). -/
def Obligations.PowGivesTheLoopsResult : Prop :=
  ∀ (n : Fin 8) (a b : Reg) (s : State),
    decode (wordOfFields 0x05 n (regIndex a) (regIndex b) 0) = .ok (.pow (.gen n) a b) ∧
    ∃ t v, exec (.pow (.gen n) a b) s = .next t ∧
      PowerLoop 65536 (s32 (s.word a)) (s32 (s.word b)).natAbs v ∧
      (0 ≤ s32 (s.word b) → s32 (t.word (.gen n)) = v ∧ WritesOnly n s t) ∧
      (s32 (s.word b) < 0 → v ≠ 0 → ∃ q, IsTruncatedQuotient (65536 * 65536) v q ∧
        s32 (t.word (.gen n)) = clip q ∧ WritesOnly n s t) ∧
      (s32 (s.word b) < 0 → v = 0 → RaisesOnly .divideByZero s t)

/-- POW at the exponents 0, 1 and −1: exponent 0 gives ONE for every base, exponent 1 copies the base, and
exponent −1 does what DIV of ONE by the base does. The base 0 with a negative exponent raises DivideByZero
and changes nothing else (R118). -/
def Obligations.PowAtExponentsZeroOneAndMinusOne : Prop :=
  ∀ (n : Fin 8) (a b : Reg) (s : State),
    (s.word b = 0#32 → ∃ t, exec (.pow (.gen n) a b) s = .next t ∧
      t.word (.gen n) = 0x00010000#32 ∧ WritesOnly n s t) ∧
    (s.word b = 1#32 → ∃ t, exec (.pow (.gen n) a b) s = .next t ∧
      t.word (.gen n) = s.word a ∧ WritesOnly n s t) ∧
    (s.word b = 0xFFFFFFFF#32 →
      exec (.pow (.gen n) a b) s = exec (.div (.gen n) (.const .one) a) s) ∧
    (s.word a = 0#32 → s32 (s.word b) < 0 →
      ∃ t, exec (.pow (.gen n) a b) s = .next t ∧ RaisesOnly .divideByZero s t)

/-- The power with an exponent that is not negative is negative only when the base is negative and the
exponent is odd (R119). -/
def Obligations.NegativePowerNeedsNegativeBaseAndOddExponent : Prop :=
  ∀ (n : Fin 8) (a b : Reg) (s t : State), 0 ≤ s32 (s.word b) →
    exec (.pow (.gen n) a b) s = .next t → s32 (t.word (.gen n)) < 0 →
    s32 (s.word a) < 0 ∧ s32 (s.word b) % 2 = 1

/-- SQRT: opcode 0x06; for 0 it gives 0, for a positive operand exactly the sixth Newton iterate from the
operand itself, which is at least 1; only the destination changes. A negative operand raises DomainError and
nothing else changes (R150, R151, R152). -/
def Obligations.SqrtGivesTheSixthNewtonIterate : Prop :=
  ∀ (n : Fin 8) (a : Reg) (s : State),
    decode (wordOfFields 0x06 n (regIndex a) 0 0) = .ok (.sqrt (.gen n) a) ∧
    (s32 (s.word a) = 0 → ∃ t, exec (.sqrt (.gen n) a) s = .next t ∧
      s32 (t.word (.gen n)) = 0 ∧ WritesOnly n s t) ∧
    (0 < s32 (s.word a) → ∃ t, exec (.sqrt (.gen n) a) s = .next t ∧
      s32 (t.word (.gen n)) = (newtonRound (s32 (s.word a)))^[6] (s32 (s.word a)) ∧
      1 ≤ s32 (t.word (.gen n)) ∧ WritesOnly n s t) ∧
    (s32 (s.word a) < 0 → ∃ t, exec (.sqrt (.gen n) a) s = .next t ∧ RaisesOnly .domainError s t)

/-- ABS: opcode 0x07; the magnitude, the one of MIN clipped to MAX; only the destination changes; no error
(R126, R132). -/
def Obligations.AbsGivesTheClippedMagnitude : Prop :=
  ∀ (n : Fin 8) (a : Reg) (s : State),
    decode (wordOfFields 0x07 n (regIndex a) 0 0) = .ok (.abs (.gen n) a) ∧
    ∃ t, exec (.abs (.gen n) a) s = .next t ∧
      s32 (t.word (.gen n)) = clip (s32 (s.word a)).natAbs ∧ WritesOnly n s t

/-- MIN: opcode 0x08; the word of the lesser operand, signed; only the destination changes; no error
(R127, R133). -/
def Obligations.MinGivesTheLesserOperand : Prop :=
  ∀ (n : Fin 8) (a b : Reg) (s : State),
    decode (wordOfFields 0x08 n (regIndex a) (regIndex b) 0) = .ok (.min (.gen n) a b) ∧
    ∃ t, exec (.min (.gen n) a b) s = .next t ∧
      t.word (.gen n) = (if s32 (s.word a) < s32 (s.word b) then s.word a else s.word b) ∧
      WritesOnly n s t

/-- MAX: opcode 0x09; the word of the greater operand, signed; only the destination changes; no error
(R128, R134). -/
def Obligations.MaxGivesTheGreaterOperand : Prop :=
  ∀ (n : Fin 8) (a b : Reg) (s : State),
    decode (wordOfFields 0x09 n (regIndex a) (regIndex b) 0) = .ok (.max (.gen n) a b) ∧
    ∃ t, exec (.max (.gen n) a b) s = .next t ∧
      t.word (.gen n) = (if s32 (s.word a) > s32 (s.word b) then s.word a else s.word b) ∧
      WritesOnly n s t

/-- CLAMP: opcode 0x0A; the `lo` test first, then the `hi` test, also when lo > hi; the result is one of the
operand words; only the destination changes; no error (R129, R131, R135). -/
def Obligations.ClampTestsLowThenHigh : Prop :=
  ∀ (n : Fin 8) (a lo hi : Reg) (s : State),
    decode (wordOfFields 0x0A n (regIndex a) (regIndex lo) (regIndex hi)) =
      .ok (.clamp (.gen n) a lo hi) ∧
    ∃ t, exec (.clamp (.gen n) a lo hi) s = .next t ∧
      t.word (.gen n) = (if s32 (s.word a) < s32 (s.word lo) then s.word lo
        else if s32 (s.word a) > s32 (s.word hi) then s.word hi else s.word a) ∧
      WritesOnly n s t

/-- CLAMP01: opcode 0x0B; the operand clamped into 0 … 65536; the same next state as CLAMP with k0 and k1;
only the destination changes; no error (R130, R136). -/
def Obligations.Clamp01ClampsIntoZeroToOne : Prop :=
  ∀ (n : Fin 8) (a : Reg) (s : State),
    decode (wordOfFields 0x0B n (regIndex a) 0 0) = .ok (.clamp01 (.gen n) a) ∧
    exec (.clamp01 (.gen n) a) s = exec (.clamp (.gen n) a (.const .zero) (.const .one)) s ∧
    ∃ t, exec (.clamp01 (.gen n) a) s = .next t ∧
      s32 (t.word (.gen n)) = max 0 (min 65536 (s32 (s.word a))) ∧ WritesOnly n s t

/-- LERPU: opcode 0x0D; clipped difference, floor of its product with t over 65536 clipped, clipped sum; only
the destination changes; no error (R142, R145). -/
def Obligations.LerpuGivesTheThreeClippedSteps : Prop :=
  ∀ (n : Fin 8) (a b c : Reg) (s : State),
    decode (wordOfFields 0x0D n (regIndex a) (regIndex b) (regIndex c)) = .ok (.lerpu (.gen n) a b c) ∧
    ∃ t p, exec (.lerpu (.gen n) a b c) s = .next t ∧
      IsFloorQuotient (clip (s32 (s.word b) - s32 (s.word a)) * s32 (s.word c)) p ∧
      s32 (t.word (.gen n)) = clip (s32 (s.word a) + clip p) ∧ WritesOnly n s t

/-- LERP: opcode 0x0C; the same steps with t clamped into 0 … 65536 first; only the destination changes; no
error (R141, R144). -/
def Obligations.LerpClampsThenInterpolates : Prop :=
  ∀ (n : Fin 8) (a b c : Reg) (s : State),
    decode (wordOfFields 0x0C n (regIndex a) (regIndex b) (regIndex c)) = .ok (.lerp (.gen n) a b c) ∧
    ∃ t p, exec (.lerp (.gen n) a b c) s = .next t ∧
      IsFloorQuotient
        (clip (s32 (s.word b) - s32 (s.word a)) * max 0 (min 65536 (s32 (s.word c)))) p ∧
      s32 (t.word (.gen n)) = clip (s32 (s.word a) + clip p) ∧ WritesOnly n s t

/-- LERP's result is always between its two end points, also where their difference saturates (R143). -/
def Obligations.LerpStaysBetweenItsEndPoints : Prop :=
  ∀ (n : Fin 8) (a b c : Reg) (s : State),
    ∃ t, exec (.lerp (.gen n) a b c) s = .next t ∧
      min (s32 (s.word a)) (s32 (s.word b)) ≤ s32 (t.word (.gen n)) ∧
      s32 (t.word (.gen n)) ≤ max (s32 (s.word a)) (s32 (s.word b))

/-- CMP: opcode 0x0E, rd 0; EQ says whether the two words are identical, LT whether the first is less,
signed; no register changes; no error. With `rd` not 0 it is an illegal command and both flags keep their
values (R110, R111). -/
def Obligations.CmpSetsEqAndLt : Prop :=
  ∀ (a b : Reg) (s : State),
    decode (wordOfFields 0x0E 0 (regIndex a) (regIndex b) 0) = .ok (.cmp a b) ∧
    ∃ t, exec (.cmp a b) s = .next t ∧
      (t.flagEq = true ↔ s.word a = s.word b) ∧
      (t.flagLt = true ↔ s32 (s.word a) < s32 (s.word b)) ∧
      SameRegs s t ∧ SameOutside s t ∧ t.err = .ok ∧
    ∀ d : Fin 16, d ≠ 0 →
      ∃ u, execute (wordOfFields 0x0E d (regIndex a) (regIndex b) 0) s = .next u ∧
        RaisesOnly .illegalCommand s u

/-- After CMP the STATUS bits 8 (EQ) and 9 (LT) give the six relations, and they are never both 1
(R112). -/
def Obligations.StatusAfterCmpGivesTheSixRelations : Prop :=
  ∀ (a b : Reg) (s : State), ∃ t, exec (.cmp a b) s = .next t ∧
    (s32 (s.word a) = s32 (s.word b) ↔ t.statusWord.getLsbD 8 = true) ∧
    (s32 (s.word a) ≠ s32 (s.word b) ↔ t.statusWord.getLsbD 8 = false) ∧
    (s32 (s.word a) < s32 (s.word b) ↔ t.statusWord.getLsbD 9 = true) ∧
    (s32 (s.word a) ≤ s32 (s.word b) ↔
      (t.statusWord.getLsbD 9 = true ∨ t.statusWord.getLsbD 8 = true)) ∧
    (s32 (s.word a) > s32 (s.word b) ↔
      (t.statusWord.getLsbD 9 = false ∧ t.statusWord.getLsbD 8 = false)) ∧
    (s32 (s.word a) ≥ s32 (s.word b) ↔ t.statusWord.getLsbD 9 = false) ∧
    ¬ (t.statusWord.getLsbD 8 = true ∧ t.statusWord.getLsbD 9 = true)

/-- FROMINT: opcode 0x0F; n × 65536 clipped, exact for −32768 ≤ n ≤ 32767, MAX above and MIN below; only the
destination changes; no error (R81, R84). -/
def Obligations.FromintScalesAndClips : Prop :=
  ∀ (n : Fin 8) (a : Reg) (s : State),
    decode (wordOfFields 0x0F n (regIndex a) 0 0) = .ok (.fromint (.gen n) a) ∧
    ∃ t, exec (.fromint (.gen n) a) s = .next t ∧
      s32 (t.word (.gen n)) = (if s32 (s.word a) > 32767 then 2147483647
        else if s32 (s.word a) < -32768 then -2147483648 else s32 (s.word a) * 65536) ∧
      WritesOnly n s t

/-- NEG gives the clipped negation and MOV copies the word bit for bit; each only writes its destination
(R70, R125, R127). -/
def Obligations.NegNegatesAndMovCopies : Prop :=
  ∀ (n : Fin 8) (a : Reg) (s : State),
    (∃ t, exec (neg (.gen n) a) s = .next t ∧
      s32 (t.word (.gen n)) = clip (-(s32 (s.word a))) ∧ WritesOnly n s t) ∧
    (∃ t, exec (mov (.gen n) a) s = .next t ∧ t.word (.gen n) = s.word a ∧ WritesOnly n s t)

/-- Adding b and then subtracting it gives a back exactly when the sum is in range; the sum's register is not
b's (R99). -/
def Obligations.SubUndoesAddUnlessTheSumSaturates : Prop :=
  ∀ (n m : Fin 8) (a b : Reg) (s : State), b ≠ .gen n →
    ∃ t u, exec (.add (.gen n) a b) s = .next t ∧ exec (.sub (.gen m) (.gen n) b) t = .next u ∧
      (u.word (.gen m) = s.word a ↔
        -2147483648 ≤ s32 (s.word a) + s32 (s.word b) ∧
        s32 (s.word a) + s32 (s.word b) ≤ 2147483647)

/-- Addition and multiplication do not depend on the order of their sources, and ONE and ZERO are their
identities: the next state is that of a copy (R97). -/
def Obligations.ArithmeticIdentities : Prop :=
  ∀ (n : Fin 8) (a b : Reg) (s : State),
    exec (.add (.gen n) a b) s = exec (.add (.gen n) b a) s ∧
    exec (.mul (.gen n) a b) s = exec (.mul (.gen n) b a) s ∧
    exec (.add (.gen n) a (.const .zero)) s = exec (mov (.gen n) a) s ∧
    exec (.sub (.gen n) a (.const .zero)) s = exec (mov (.gen n) a) s ∧
    exec (.mul (.gen n) a (.const .one)) s = exec (mov (.gen n) a) s ∧
    exec (.div (.gen n) a (.const .one)) s = exec (mov (.gen n) a) s ∧
    exec (.mul (.gen n) a (.const .minusOne)) s = exec (neg (.gen n) a) s ∧
    exec (.div (.gen n) a (.const .minusOne)) s = exec (neg (.gen n) a) s

/-! ### Whole-machine rules -/

/-- Whatever the command, a register that is not its destination is unchanged, EQ and LT are unchanged unless
it is CMP, and nothing outside the command's reach changes (R71, R25). -/
def Obligations.CommandsWriteOnlyTheirDestination : Prop :=
  ∀ (i : Instr) (s : State), ∃ t, exec i s = .next t ∧
    (∀ r : Reg, i.dest ≠ some r → t.word r = s.word r) ∧
    ((∀ a b, i ≠ .cmp a b) → SameFlags s t) ∧ SameOutside s t

/-- A command that ends in an error leaves the state as it was but for STATUS.ERR, which holds the error
(R166, R167). -/
def Obligations.FailingCommandChangesOnlyErr : Prop :=
  ∀ (w : Word) (s t : State) (e : CmdError), execute w s = .next t → t.err = .raised e →
    t = { s with err := .raised e }

/-- DivideByZero comes from exactly two places: DIV with a divisor 0, and POW with a negative exponent whose
positive power is 0 (R161). -/
def Obligations.DivideByZeroOnlyFromDivAndPow : Prop :=
  ∀ (i : Instr) (s : State), i.wf = true → ∃ t, exec i s = .next t ∧
    (t.err = .raised .divideByZero ↔
      (∃ d a b, i = .div d a b ∧ s32 (s.word b) = 0) ∨
      (∃ d a b, i = .pow d a b ∧ s32 (s.word b) < 0 ∧
        PowerLoop 65536 (s32 (s.word a)) (s32 (s.word b)).natAbs 0))

/-- DomainError comes from exactly one place: SQRT of a negative operand (R162). -/
def Obligations.DomainErrorOnlyFromSqrtOfNegative : Prop :=
  ∀ (i : Instr) (s : State), i.wf = true → ∃ t, exec i s = .next t ∧
    (t.err = .raised .domainError ↔ ∃ d a, i = .sqrt d a ∧ s32 (s.word a) < 0)

/-- A command's status, the word it writes and the flags CMP sets depend on the words of its source registers
and on nothing else of the state (R171). -/
def Obligations.ResultDependsOnSourcesOnly : Prop :=
  ∀ (i : Instr) (s s' : State), (∀ r ∈ i.sources, s.word r = s'.word r) →
    ∃ t t', exec i s = .next t ∧ exec i s' = .next t' ∧ t.err = t'.err ∧
      (t.err = .ok → ∀ n, i.dest = some (.gen n) → t.word (.gen n) = t'.word (.gen n)) ∧
      (i.dest = none → t.flagEq = t'.flagEq ∧ t.flagLt = t'.flagLt)

/-- The STATUS word: ERR in bits 2:0, EQ bit 8, LT bit 9, every other bit 0 (R26). -/
def Obligations.StatusWordLayout : Prop :=
  ∀ s : State, s.statusWord.toNat =
    (match s.err with
      | .ok => 0
      | .raised .divideByZero => 1
      | .raised .domainError => 2
      | .raised .illegalCommand => 3) +
    (if s.flagEq then 256 else 0) + (if s.flagLt then 512 else 0)

/-! ### Steps and the host port -/

/-- A step performs the command that the host's next CMD write carries: it is exec of the decoded command,
and the response with data 0 and the command's status, which is what STATUS.ERR then holds (R54, R71). Two
further clauses rest on the model's choices and on no rule: the same when the write is already accepted
(notes/assumptions/9.md), and the same when the word is placed by `withFetchWord`
(notes/assumptions/4.md). -/
def Obligations.StepRunsTheDecodedCommand : Prop :=
  ∀ (w : Word) (i : Instr) (s t : State), decode w = .ok i →
    (∀ k rest, s.port = .idle k → s.host = .request (commandRequest w) :: rest →
      exec i { s with host := rest } = .next t →
      step s = .next { t with port := .responding ⟨0#32, .done t.err⟩ }) ∧
    (∀ left, s.port = .busy (commandRequest w) left → exec i s = .next t →
      step s = .next { t with port := .responding ⟨0#32, .done t.err⟩ }) ∧
    (exec i { s with port := .idle 0 } = .next t →
      step (s.withFetchWord 32 w.toNat) = .next { t with port := .responding ⟨0#32, .done t.err⟩ })

/-- A CMD write of a word that is no legal command raises IllegalCommand: STATUS.ERR becomes 3, the response
says so, and nothing else changes (R54, R163). -/
def Obligations.StepOnIllegalWordRaises : Prop :=
  ∀ (w : Word) (s : State) (k : Nat) (rest : List HostEvent), ¬ LegalCommand w → s.port = .idle k →
    s.host = .request (commandRequest w) :: rest →
    step s = .next { s with
      host := rest
      err := .raised .illegalCommand
      port := .responding ⟨0#32, .done (.raised .illegalCommand)⟩ }

/-- A legal read answers with the word read, status OK, and changes no state: r0 … r7 at 0 … 7, k0 … k4 at
8 … 12, STATUS at 0x11 (R41, R46, R54). -/
def Obligations.ReadsAnswerAndChangeNothing : Prop :=
  ∀ (s : State) (k : Nat) (rest : List HostEvent) (addr : BitVec 5) (d : Word), s.port = .idle k →
    s.host = .request ⟨false, addr, d⟩ :: rest →
    (∀ r : Reg, addr.toNat = regIndex r → step s = .next { s with
      host := rest, port := .responding ⟨s.word r, .done .ok⟩ }) ∧
    (addr = 0x11#5 → step s = .next { s with
      host := rest, port := .responding ⟨s.statusWord, .done .ok⟩ })

/-- A write of a general register's location stores the word as it is, answers 0 and OK, and changes nothing
else, not even STATUS.ERR (R46, R54, R80). -/
def Obligations.RegisterWritesStoreVerbatim : Prop :=
  ∀ (s : State) (k : Nat) (rest : List HostEvent) (n : Fin 8) (addr : BitVec 5) (d : Word),
    s.port = .idle k → addr.toNat = n.val → s.host = .request ⟨true, addr, d⟩ :: rest →
    ∃ t, step s = .next t ∧ t.word (.gen n) = d ∧ (∀ r : Reg, r ≠ .gen n → t.word r = s.word r) ∧
      SameFlags s t ∧ t.err = s.err ∧ t.host = rest ∧ t.free = s.free ∧
      t.port = .responding ⟨0#32, .done .ok⟩

/-- A transaction is rejected exactly when it is a write of a constant's location or of STATUS, a read of CMD,
or any access to a reserved location; it then answers ILLEGAL_ACCESS and 0 and changes no state, and every
other transaction is answered with another status (R45). -/
def Obligations.RejectedAccessChangesNothing : Prop :=
  ∀ (s : State) (k : Nat) (rest : List HostEvent) (r : Request), s.port = .idle k →
    s.host = .request r :: rest →
    ∃ t p, step s = .next t ∧ t.port = .responding p ∧
      (p.status = .illegalAccess ↔
        (r.write = true ∧ 8 ≤ r.addr.toNat ∧ r.addr.toNat ≠ 0x10 ∨
          r.write = false ∧ 13 ≤ r.addr.toNat ∧ r.addr.toNat ≠ 0x11)) ∧
      (p.status = .illegalAccess →
        t = { s with host := rest, port := .responding ⟨0#32, .illegalAccess⟩ })

/-- While a response is offered and not taken no request is accepted: the host is held and nothing changes;
taking the response frees the port and changes nothing else (R47). That the port is then ready without a wait is
the model's choice at the transaction level (notes/assumptions/25.md). -/
def Obligations.OneTransactionOutstanding : Prop :=
  ∀ (s : State) (p : Response) (rest : List HostEvent), s.port = .responding p →
    (∀ r : Request, s.host = .request r :: rest → step s = .next s) ∧
    (s.host = .takeResponse :: rest → step s = .next { s with host := rest, port := .idle 0 })

/-- Reset with no request in progress sets EQ, LT and STATUS.ERR to 0 and drops an offered response; STATUS
then reads 0 and the constants read as ever. What r0 … r7 hold afterwards is left open and nothing is said
of it (R180, R181). That a reset event falls between transactions is the model's choice
(notes/assumptions/9.md), as is that the port is ready without a wait (notes/assumptions/17.md); a reset
during a transaction is in ResetPinAbandonsTheTransaction. -/
def Obligations.ResetClearsFlagsAndErr : Prop :=
  ∀ (s : State) (rest : List HostEvent), (∀ r left, s.port ≠ .busy r left) →
    s.host = .reset :: rest →
    ∃ t, step s = .next t ∧ t.flagEq = false ∧ t.flagLt = false ∧ t.err = .ok ∧
      t.statusWord = 0#32 ∧ t.port = .idle 0 ∧ t.host = rest ∧
      ∀ k : ConstReg, t.word (.const k) = s.word (.const k)

/-- The state after reset: the flags, STATUS and the constants as the spec gives them, and the port ready
(R22, R30, R180). The port being ready without a wait is the model's reading (notes/assumptions/17.md). The
zeros of r0 … r7 there are the model's choice (notes/assumptions/1.md) and are not stated. -/
def Obligations.ResetStateIsAsTheSpecGivesIt : Prop :=
  State.reset.statusWord = 0#32 ∧ State.reset.port = .idle 0 ∧
  State.reset.word (.const .zero) = 0x00000000#32 ∧ State.reset.word (.const .one) = 0x00010000#32 ∧
  State.reset.word (.const .minusOne) = 0xFFFF0000#32 ∧ State.reset.word (.const .max) = 0x7FFFFFFF#32 ∧
  State.reset.word (.const .min) = 0x80000000#32

/-- The block never stops: from every state, reachable or not, a step answers a next state. No command hangs
and none has no meaning (R71, R185 c). That nothing at all stops the machine and that an idle step answers
the same state are the model's readings (notes/assumptions/13.md, notes/assumptions/6.md). -/
def Obligations.StepAlwaysAnswersANextState : Prop :=
  ∀ s : State, ∃ t, step s = .next t

/-- The invariant holds after reset. -/
def Obligations.ResetMeetsTheInvariant : Prop := Inv State.reset

/-- Every step keeps the invariant: EQ and LT are never both 1, an offered response that is not OK carries data
0, and a command error on it is the one STATUS.ERR holds (R25, R27, R53, R112). -/
def Obligations.StepKeepsTheInvariant : Prop :=
  ∀ s t : State, Inv s → step s = .next t → Inv t

/-! ### The pins -/

/-- Every clock cycle answers a next state and keeps the invariant, with any inputs, and the bound on what is
left of a transaction in progress (R25, R180, R185 b). -/
def Obligations.CyclesKeepTheInvariant : Prop :=
  ∀ (s : State) (i : PinsIn), Inv s → BusyWithinBound s →
    ∃ t, cycle s i = .next t ∧ Inv t ∧ BusyWithinBound t

/-- Every latency is positive and at most one constant of the implementation (R3, R185 b). -/
def Obligations.LatencyIsPositiveAndBounded : Prop :=
  ∃ bound : Nat, ∀ (s : State) (r : Request), 1 ≤ s.latencyOf r ∧ s.latencyOf r ≤ bound

/-- A request accepted at the pins is answered after exactly its latency: as long as fewer cycles have passed
it is in progress, the registers, flags and STATUS are as they were and no response is offered, and when that
many have passed the cycles have done exactly the one transaction (R29, R47, R184, R185). What the latency
counts from is the model's choice (notes/assumptions/10.md), as is that a register write takes effect in the
last of its cycles (notes/assumptions/24.md). -/
def Obligations.AcceptedRequestIsAnsweredAfterItsLatency : Prop :=
  ∀ (s : State) (i : PinsIn) (later : List PinsIn), s.port = .idle 0 → i.rst = false →
    i.reqValid = true → (∀ j ∈ later, j.rst = false) → later.length + 1 ≤ s.latencyOf i.request →
    (later.length + 1 = s.latencyOf i.request ∧ cycles s (i :: later) = transact i.request s) ∨
    (later.length + 1 < s.latencyOf i.request ∧ ∃ t, cycles s (i :: later) = .next t ∧
      t.port = .busy i.request (s.latencyOf i.request - (later.length + 1)) ∧ SameArchitecture s t)

/-- The pins and the transaction level agree: the cycles from the acceptance of a request to its response do
what one step does when that request is the host's next event (R29, R47, R185). What the latency counts from
is the model's choice (notes/assumptions/10.md). -/
def Obligations.CyclesRefineTheStep : Prop :=
  ∀ (s t : State) (i : PinsIn) (later : List PinsIn), s.port = .idle 0 → i.rst = false →
    i.reqValid = true → (∀ j ∈ later, j.rst = false) → later.length + 1 = s.latencyOf i.request →
    cycles s (i :: later) = .next t →
    step { s with host := .request i.request :: s.host } = .next t

/-- While a transaction is outstanding the request pins have no effect: `req_ready` is 0 and neither the next
state nor the outputs depend on them (R47). That this includes the cycle in which the response is taken is
the model's reading (notes/assumptions/11.md). -/
def Obligations.RequestPinsIgnoredWhileOutstanding : Prop :=
  ∀ (s : State) (i j : PinsIn), (∀ k, s.port ≠ .idle k) → i.rst = j.rst → i.rspReady = j.rspReady →
    cycle s i = cycle s j ∧ s.pinsOut i = s.pinsOut j ∧ (s.pinsOut i).reqReady = false

/-- An idle block becomes ready in a finite time, and until then it changes nothing else, whatever is offered
to it (R185 a). -/
def Obligations.IdleBlockBecomesReady : Prop :=
  ∀ (s : State) (wait : Nat) (ins : List PinsIn), s.port = .idle wait → ins.length = wait →
    (∀ j ∈ ins, j.rst = false) → cycles s ins = .next { s with port := .idle 0 }

/-- A command error leaves the block at once ready: once its response is taken, `req_ready` is 1 in the very
next cycle without reset (R166). "At once" as the very next cycle is the model's reading
(notes/assumptions/12.md). -/
def Obligations.ReadyAtOnceAfterACommandError : Prop :=
  ∀ (s : State) (d : Word) (e : CmdError) (i j : PinsIn), s.port = .responding ⟨d, .done (.raised e)⟩ →
    i.rst = false → i.rspReady = true → j.rst = false →
    ∃ t, cycle s i = .next t ∧ (t.pinsOut j).reqReady = true ∧ SameArchitecture s t

/-- A cycle with `rst` at 1: `req_ready` and `rsp_valid` are 0, a transaction in progress is abandoned without
a response, EQ, LT and STATUS.ERR become 0, and in the next cycle without reset the block is ready (R180).
Ready as `req_ready` at 1 in that cycle is the model's reading (notes/assumptions/17.md). -/
def Obligations.ResetPinAbandonsTheTransaction : Prop :=
  ∀ (s : State) (i j : PinsIn), i.rst = true → j.rst = false →
    (s.pinsOut i).reqReady = false ∧ (s.pinsOut i).rsp = none ∧
    ∃ t, cycle s i = .next t ∧ t.flagEq = false ∧ t.flagLt = false ∧ t.err = .ok ∧
      t.port = .idle 0 ∧ (t.pinsOut j).reqReady = true ∧ (t.pinsOut j).rsp = none

/-! ### Host side -/

/-- The raw word of a number is its product with 65536 truncated toward zero, so it falls short of the number
by less than one unit of 1/65536; a number has one exactly when the truncation is in −2^31 … 2^31 − 1 (R82,
R83, R88). That the same range decides for a decimal literal is the model's choice
(notes/assumptions/23.md). -/
def Obligations.RawOfFractionIsWithinOneUnit : Prop :=
  ∀ (num : Int) (den : Nat), 0 < den →
    (∀ v, rawOfFraction num den = some v →
      IsTruncatedQuotient (num * 65536) den v ∧
      v.natAbs * den ≤ num.natAbs * 65536 ∧ num.natAbs * 65536 < (v.natAbs + 1) * den) ∧
    ((rawOfFraction num den).isSome = true ↔
      -2147483649 * (den : Int) < num * 65536 ∧ num * 65536 < 2147483648 * (den : Int))

/-! ### The response pins -/

/-- The response pins carry a response exactly while the port offers it and `rst` is 0 (R47, R48). While the
host does not take it, cycles without reset change nothing, however many pass, and `req_ready` is 0; the cycle
that takes it frees the port, changes no register, flag or STATUS, and no response is offered after it. That an
offered response stays until it is taken is the model's choice (notes/assumptions/21.md), as is that `req_ready`
is 0 in the very cycle that takes it (notes/assumptions/11.md). -/
def Obligations.OfferedResponseStaysUntilTaken : Prop :=
  ∀ (s : State) (p : Response),
    (∀ i : PinsIn, (s.pinsOut i).rsp = some p ↔ i.rst = false ∧ s.port = .responding p) ∧
    (s.port = .responding p →
      (∀ i : PinsIn, (s.pinsOut i).reqReady = false) ∧
      (∀ ins : List PinsIn, (∀ j ∈ ins, j.rst = false ∧ j.rspReady = false) → cycles s ins = .next s) ∧
      (∀ i : PinsIn, i.rst = false → i.rspReady = true → ∃ t k, cycle s i = .next t ∧
        t.port = .idle k ∧ SameArchitecture s t ∧ ∀ j : PinsIn, (t.pinsOut j).rsp = none))

/-- The `wdata` of a read is ignored: from an idle block, two runs of the pins whose first cycles offer a read of
the same location with different data, and whose later cycles are the same, have the same outputs in every cycle
and the same registers, flags and STATUS; what is in progress differs in the ignored data at most (R47). -/
def Obligations.ReadIgnoresItsData : Prop :=
  ∀ (s : State) (i j : PinsIn) (later : List PinsIn), s.port = .idle 0 → i.reqWrite = false →
    j = { i with reqWdata := j.reqWdata } →
    s.pinsOut i = s.pinsOut j ∧
    ∃ t u, cycles s (i :: later) = .next t ∧ cycles s (j :: later) = .next u ∧
      SameArchitecture t u ∧ (∀ k : PinsIn, t.pinsOut k = u.pinsOut k) ∧
      (t = u ∨ ∃ left, t.port = .busy i.request left ∧ u = { t with port := .busy j.request left })
end

