-- ==== Sys2Proof/Laws/Decode.lean ====
section
/-! SUPPORT. Fields of an encoded word, and register indices. -/

namespace Sys2Proof

/-- An index is at most 12 (R23). -/
theorem regIndex_lt (r : Reg) : regIndex r < 13 := by
  cases r with
  | gen n => exact Nat.lt_of_lt_of_le n.isLt (by decide)
  | const k => cases k <;> decide

/-- The index of a register names it again (R23). -/
@[simp] theorem regOfIndex_regIndex (r : Reg) : regOfIndex (regIndex r) = some r := by
  cases r with
  | gen n => simp [regOfIndex, regIndex]
  | const k => cases k <;> rfl

/-- An index that names a register is that register's (R23). -/
theorem regIndex_of_regOfIndex {n : Nat} {r : Reg} (h : regOfIndex n = some r) : regIndex r = n := by
  unfold regOfIndex at h
  split at h
  · cases h; rfl
  · repeat' split at h
    all_goals first | (cases h; simp_all [regIndex]) | cases h

/-- An index names a register exactly when it is at most 12 (R23). -/
theorem regOfIndex_isSome {n : Nat} : (regOfIndex n).isSome ↔ n ≤ 12 := by
  unfold regOfIndex
  repeat' split
  all_goals (simp; omega)

/-- Whether a register is general, read off its index (R23). -/
theorem isGeneral_iff (r : Reg) : r.isGeneral = true ↔ regIndex r ≤ 7 := by
  cases r with
  | gen n => simp [Reg.isGeneral, regIndex]; omega
  | const k => cases k <;> simp [Reg.isGeneral, regIndex]

/-- A field that holds 0 passes the check of an unused field. Cite this lemma rather than unfold `unused`
at a field of an encoded word. -/
@[simp] theorem unused_zero : unused 0 = .ok () := rfl

/-- An unused field passes exactly when it is 0 (R65 check 3). -/
theorem unused_eq_ok {n : Nat} {u : Unit} : unused n = .ok u ↔ n = 0 := by
  unfold unused; split <;> simp [*]

/-- A register's index is a legal source (R65 check 3). -/
@[simp] theorem sourceOf_regIndex (r : Reg) : sourceOf (regIndex r) = .ok r := by simp [sourceOf]

/-- A source field that passes holds its register's index (R65 check 3). -/
theorem sourceOf_eq_ok {n : Nat} {r : Reg} : sourceOf n = .ok r ↔ regIndex r = n := by
  constructor
  · unfold sourceOf
    split
    · rename_i h
      intro e
      cases e
      exact regIndex_of_regOfIndex h
    · intro e; cases e
  · rintro rfl; simp

/-- A general register's index is a legal destination (R65 check 4). -/
theorem destOf_regIndex {r : Reg} (h : r.isGeneral = true) : destOf (regIndex r) = .ok r := by
  cases r with
  | gen n => simp [destOf]
  | const k => cases h

/-- A destination field that passes holds a general register's index (R65 check 4). -/
theorem destOf_eq_ok {n : Nat} {r : Reg} : destOf n = .ok r ↔ regIndex r = n ∧ r.isGeneral = true := by
  constructor
  · unfold destOf
    split
    · rename_i h
      intro e
      cases e
      exact ⟨regIndex_of_regOfIndex h, rfl⟩
    · intro e; cases e
    · intro e; cases e
  · rintro ⟨rfl, h⟩; exact destOf_regIndex h

/-- A check followed by another passes when both do. -/
theorem bind_eq_ok {α β : Type} {x : Except Reject α} {f : α → Except Reject β} {c : β} :
    (x >>= f) = .ok c ↔ ∃ a, x = .ok a ∧ f a = .ok c := by
  cases x <;> simp [bind, Except.bind]

/-- What a check hands on is what it passes. -/
theorem pure_eq_ok {α : Type} {a c : α} : (pure a : Except Reject α) = .ok c ↔ c = a := by
  simp [pure, Except.pure, eq_comm]

/-- One source: what the operand check answers `ok` to (R65). -/
theorem operands1_eq_ok {w : Word} {f : Reg → Reg → Instr} {i : Instr} :
    operands1 w f = .ok i ↔ ∃ a, regIndex a = rs1Field w ∧ rs2Field w = 0 ∧ rs3Field w = 0 ∧
      ∃ d, (regIndex d = rdField w ∧ d.isGeneral = true) ∧ i = f d a := by
  simp only [operands1, bind_eq_ok, sourceOf_eq_ok, unused_eq_ok, destOf_eq_ok, pure_eq_ok,
    exists_const]

/-- Two sources: what the operand check answers `ok` to (R65). -/
theorem operands2_eq_ok {w : Word} {f : Reg → Reg → Reg → Instr} {i : Instr} :
    operands2 w f = .ok i ↔ ∃ a, regIndex a = rs1Field w ∧ ∃ b, regIndex b = rs2Field w ∧
      rs3Field w = 0 ∧ ∃ d, (regIndex d = rdField w ∧ d.isGeneral = true) ∧ i = f d a b := by
  simp only [operands2, bind_eq_ok, sourceOf_eq_ok, unused_eq_ok, destOf_eq_ok, pure_eq_ok,
    exists_const]

/-- Three sources: what the operand check answers `ok` to (R65). -/
theorem operands3_eq_ok {w : Word} {f : Reg → Reg → Reg → Reg → Instr} {i : Instr} :
    operands3 w f = .ok i ↔ ∃ a, regIndex a = rs1Field w ∧ ∃ b, regIndex b = rs2Field w ∧
      ∃ c, regIndex c = rs3Field w ∧
      ∃ d, (regIndex d = rdField w ∧ d.isGeneral = true) ∧ i = f d a b c := by
  simp only [operands3, bind_eq_ok, sourceOf_eq_ok, destOf_eq_ok, pure_eq_ok]

/-- CMP: what the operand check answers `ok` to (R65). -/
theorem operandsCmp_eq_ok {w : Word} {i : Instr} :
    operandsCmp w = .ok i ↔ ∃ a, regIndex a = rs1Field w ∧ ∃ b, regIndex b = rs2Field w ∧
      rs3Field w = 0 ∧ rdField w = 0 ∧ i = .cmp a b := by
  simp only [operandsCmp, bind_eq_ok, sourceOf_eq_ok, unused_eq_ok, exists_const]
  split <;> simp [pure_eq_ok, throw, throwThe, MonadExceptOf.throw, *]

section Fields
variable {op d a b c : Nat} (ho : op < 256) (hd : d < 16) (ha : a < 16) (hb : b < 16) (hc : c < 16)
include ho hd ha hb hc

/-- The number that a word of the given fields is (R60). -/
theorem wordOfFields_toNat : (wordOfFields op d a b c).toNat =
    op * 2 ^ 24 + d * 2 ^ 20 + a * 2 ^ 16 + b * 2 ^ 12 + c * 2 ^ 8 := by
  simp only [wordOfFields, BitVec.toNat_ofNat]; omega

theorem opcodeField_wordOfFields : opcodeField (wordOfFields op d a b c) = op := by
  simp only [opcodeField, field, wordOfFields_toNat ho hd ha hb hc]; omega
theorem rdField_wordOfFields : rdField (wordOfFields op d a b c) = d := by
  simp only [rdField, field, wordOfFields_toNat ho hd ha hb hc]; omega
theorem rs1Field_wordOfFields : rs1Field (wordOfFields op d a b c) = a := by
  simp only [rs1Field, field, wordOfFields_toNat ho hd ha hb hc]; omega
theorem rs2Field_wordOfFields : rs2Field (wordOfFields op d a b c) = b := by
  simp only [rs2Field, field, wordOfFields_toNat ho hd ha hb hc]; omega
theorem rs3Field_wordOfFields : rs3Field (wordOfFields op d a b c) = c := by
  simp only [rs3Field, field, wordOfFields_toNat ho hd ha hb hc]; omega
theorem zeroField_wordOfFields : zeroField (wordOfFields op d a b c) = 0 := by
  simp only [zeroField, field, wordOfFields_toNat ho hd ha hb hc]; omega

end Fields

/-- A word is the word of its fields when its zero byte is 0 (R60). -/
theorem wordOfFields_fields {w : Word} (h : zeroField w = 0) :
    wordOfFields (opcodeField w) (rdField w) (rs1Field w) (rs2Field w) (rs3Field w) = w := by
  apply BitVec.eq_of_toNat_eq
  have hw := w.isLt
  simp only [zeroField, opcodeField, rdField, rs1Field, rs2Field, rs3Field, field, wordOfFields,
    BitVec.toNat_ofNat] at *
  omega

/-- The word of fields of a command with one source decodes to it, if its opcode's line of the decoder is
`operands1` (R63). -/
theorem decode_fields1 {op : Nat} {f : Reg → Reg → Instr} (n : Fin 8) (a : Reg) (ho : op < 256)
    (hf : ∀ w, zeroField w = 0 → opcodeField w = op → decode w = operands1 w f) :
    decode (wordOfFields op n (regIndex a) 0 0) = .ok (f (.gen n) a) := by
  have hn : (n : Nat) < 16 := by omega
  have ha : regIndex a < 16 := Nat.lt_trans (regIndex_lt a) (by decide)
  have h0 : (0 : Nat) < 16 := by decide
  rw [hf _ (zeroField_wordOfFields ho hn ha h0 h0) (opcodeField_wordOfFields ho hn ha h0 h0),
    operands1_eq_ok]
  exact ⟨a, (rs1Field_wordOfFields ho hn ha h0 h0).symm, rs2Field_wordOfFields ho hn ha h0 h0,
    rs3Field_wordOfFields ho hn ha h0 h0, .gen n,
    ⟨(rdField_wordOfFields ho hn ha h0 h0).symm, rfl⟩, rfl⟩

/-- The same for two sources (R63). -/
theorem decode_fields2 {op : Nat} {f : Reg → Reg → Reg → Instr} (n : Fin 8) (a b : Reg) (ho : op < 256)
    (hf : ∀ w, zeroField w = 0 → opcodeField w = op → decode w = operands2 w f) :
    decode (wordOfFields op n (regIndex a) (regIndex b) 0) = .ok (f (.gen n) a b) := by
  have hn : (n : Nat) < 16 := by omega
  have ha : regIndex a < 16 := Nat.lt_trans (regIndex_lt a) (by decide)
  have hb : regIndex b < 16 := Nat.lt_trans (regIndex_lt b) (by decide)
  have h0 : (0 : Nat) < 16 := by decide
  rw [hf _ (zeroField_wordOfFields ho hn ha hb h0) (opcodeField_wordOfFields ho hn ha hb h0),
    operands2_eq_ok]
  exact ⟨a, (rs1Field_wordOfFields ho hn ha hb h0).symm, b,
    (rs2Field_wordOfFields ho hn ha hb h0).symm, rs3Field_wordOfFields ho hn ha hb h0, .gen n,
    ⟨(rdField_wordOfFields ho hn ha hb h0).symm, rfl⟩, rfl⟩

/-- The same for three sources (R63). -/
theorem decode_fields3 {op : Nat} {f : Reg → Reg → Reg → Reg → Instr} (n : Fin 8) (a b c : Reg)
    (ho : op < 256)
    (hf : ∀ w, zeroField w = 0 → opcodeField w = op → decode w = operands3 w f) :
    decode (wordOfFields op n (regIndex a) (regIndex b) (regIndex c)) = .ok (f (.gen n) a b c) := by
  have hn : (n : Nat) < 16 := by omega
  have ha : regIndex a < 16 := Nat.lt_trans (regIndex_lt a) (by decide)
  have hb : regIndex b < 16 := Nat.lt_trans (regIndex_lt b) (by decide)
  have hc : regIndex c < 16 := Nat.lt_trans (regIndex_lt c) (by decide)
  rw [hf _ (zeroField_wordOfFields ho hn ha hb hc) (opcodeField_wordOfFields ho hn ha hb hc),
    operands3_eq_ok]
  exact ⟨a, (rs1Field_wordOfFields ho hn ha hb hc).symm, b,
    (rs2Field_wordOfFields ho hn ha hb hc).symm, c, (rs3Field_wordOfFields ho hn ha hb hc).symm, .gen n,
    ⟨(rdField_wordOfFields ho hn ha hb hc).symm, rfl⟩, rfl⟩

/-- A bit of a word is a bit of the field it lies in (R4). -/
theorem getLsbD_eq_field (w : Word) {hi lo i : Nat} (h1 : lo ≤ i) (h2 : i ≤ hi) :
    w.getLsbD i = (field w hi lo).testBit (i - lo) := by
  rw [field, Nat.testBit_mod_two_pow, Nat.testBit_div_two_pow, decide_eq_true (by omega),
    Bool.true_and, BitVec.testBit_toNat]
  congr 1; omega

/-- A word that matches a pattern under a mask holding the whole opcode field has the pattern's opcode
(R64). -/
theorem opcodeField_of_and {w m p : Word} (hm : m &&& 0xFF000000#32 = 0xFF000000#32)
    (h : w &&& m = p) : opcodeField w = opcodeField p := by
  have hb : ∀ i, 24 ≤ i → i ≤ 31 → w.getLsbD i = p.getLsbD i := by
    intro i h1 h2
    have hmi : m.getLsbD i = true := by
      have := congrArg (·.getLsbD i) hm
      simp only [BitVec.getLsbD_and] at this
      interval_cases i <;> simpa using this
    rw [← h, BitVec.getLsbD_and, hmi, Bool.and_true]
  apply Nat.eq_of_testBit_eq
  intro j
  unfold opcodeField
  by_cases hj : j ≤ 7
  · have := hb (j + 24) (by omega) (by omega)
    rw [getLsbD_eq_field w (hi := 31) (lo := 24) (by omega) (by omega),
      getLsbD_eq_field p (hi := 31) (lo := 24) (by omega) (by omega), Nat.add_sub_cancel] at this
    exact this
  · unfold field
    rw [Nat.testBit_mod_two_pow, Nat.testBit_mod_two_pow, decide_eq_false (by omega)]; rfl

/-- Every row's mask holds the whole opcode field, and its pattern the command's opcode (R64). -/
theorem rowOf_opcode (i : Instr) :
    (rowOf i).mask &&& 0xFF000000#32 = 0xFF000000#32 ∧ opcodeField (rowOf i).pattern = opcode i := by
  cases i <;> simp only [rowOf, opcode] <;> decide

end Sys2Proof
end

