-- ==== Sys2Proof/Laws/Numeric.lean ====
section
/-! SUPPORT. The numeric functions: ranges, saturation, the power's fuel, and the square root's rounds. -/

namespace Sys2Proof.Machine

/-- The signed reading of a word is in range (R5, R31). -/
theorem s32_inRange (w : Word) : InRange (s32 w) := by
  have h1 := BitVec.le_toInt w
  have h2 := BitVec.toInt_lt (x := w)
  simp only [InRange, minRaw, maxRaw, s32] at *
  norm_num at h1 h2
  omega

/-- In range, writing a raw value and reading it back is exact (R5). -/
theorem s32_w32 (v : Int) (h : InRange v) : s32 (w32 v) = v := by
  simp only [InRange, minRaw, maxRaw] at h
  simp only [s32, w32, BitVec.toInt_ofInt, Int.bmod_def]
  omega

/-- A word is determined by its signed reading (R5). -/
theorem w32_s32 (w : Word) : w32 (s32 w) = w := by simp [w32, s32]

/-- Saturation is clipping between the two bounds (R9). -/
theorem sat32_eq (v : Int) : sat32 v = max minRaw (min maxRaw v) := by
  unfold sat32
  simp only [minRaw, maxRaw]
  split
  · omega
  · split <;> omega

/-- A saturated value is in range. -/
theorem sat32_inRange (v : Int) : InRange (sat32 v) := by
  rw [sat32_eq]; simp only [InRange, minRaw, maxRaw]; omega

/-- A value in range is not changed by saturation. -/
theorem sat32_of_inRange (v : Int) (h : InRange v) : sat32 v = v := by
  rw [sat32_eq]; simp only [InRange, minRaw, maxRaw] at *; omega

/-- Saturation is monotone. -/
theorem sat32_mono {v w : Int} (h : v ≤ w) : sat32 v ≤ sat32 w := by
  simp only [sat32_eq, minRaw, maxRaw]; omega

theorem fxAdd_inRange (a b : Int) : InRange (fxAdd a b) := sat32_inRange _
theorem fxSub_inRange (a b : Int) : InRange (fxSub a b) := sat32_inRange _
theorem fxMul_inRange (a b : Int) : InRange (fxMul a b) := sat32_inRange _
theorem fxFromInt_inRange (n : Int) : InRange (fxFromInt n) := sat32_inRange _

/-- Division errs exactly when the divisor is 0 (R94). -/
theorem fxDiv_zero (a : Int) : fxDiv a 0 = .error .divideByZero := rfl

/-- Division by a divisor that is not 0 (R94). -/
theorem fxDiv_of_ne {a b : Int} (h : b ≠ 0) :
    fxDiv a b = .ok (sat32 (Int.tdiv (a * 65536) b)) := by simp [fxDiv, h, tdiv]

theorem fxNeg_inRange (a : Int) : InRange (fxNeg a) := sat32_inRange _

theorem fxAbs_inRange {a : Int} (h : InRange a) : InRange (fxAbs a) := by
  unfold fxAbs
  split
  · exact fxNeg_inRange a
  · exact h

theorem fxMin_inRange {a b : Int} (ha : InRange a) (hb : InRange b) : InRange (fxMin a b) := by
  unfold fxMin; split <;> assumption

theorem fxMax_inRange {a b : Int} (ha : InRange a) (hb : InRange b) : InRange (fxMax a b) := by
  unfold fxMax; split <;> assumption

theorem fxClamp_inRange {a lo hi : Int} (ha : InRange a) (hl : InRange lo) (hh : InRange hi) :
    InRange (fxClamp a lo hi) := by
  unfold fxClamp
  split
  · exact hl
  · split <;> assumption

theorem fxClamp01_inRange {a : Int} (ha : InRange a) : InRange (fxClamp01 a) :=
  fxClamp_inRange ha (by decide) (by decide)

theorem fxLerpu_inRange (a b t : Int) : InRange (fxLerpu a b t) := sat32_inRange _
theorem fxLerp_inRange (a b t : Int) : InRange (fxLerp a b t) := sat32_inRange _

/-- One round of the power's loop, when the exponent is not used up. -/
theorem powLoop_succ (fuel : Nat) (result acc : Int) {e : Nat} (h : e ≠ 0) :
    powLoop (fuel + 1) result acc e =
      powLoop fuel (if e % 2 = 1 then fxMul result acc else result) (fxMul acc acc) (e / 2) := by
  simp [powLoop, h]

/-- With the exponent used up, the loop ends at once. -/
@[simp] theorem powLoop_zero (fuel : Nat) (result acc : Int) : powLoop fuel result acc 0 = result := by
  cases fuel <;> rfl

/-- Fuel beyond the exponent's bits changes nothing: the bound on the rounds is never reached (R120). -/
theorem powLoop_fuel {fuel : Nat} :
    ∀ {result acc : Int} {e : Nat} (more : Nat), e < 2 ^ fuel →
      powLoop (fuel + more) result acc e = powLoop fuel result acc e := by
  induction fuel with
  | zero =>
    intro result acc e more h
    obtain rfl : e = 0 := by simpa using h
    simp
  | succ fuel ih =>
    intro result acc e more h
    by_cases he : e = 0
    · subst he; simp
    · have hlt : e / 2 < 2 ^ fuel := by rw [Nat.pow_succ] at h; omega
      rw [show fuel + 1 + more = fuel + more + 1 by omega, powLoop_succ _ _ _ he,
        powLoop_succ _ _ _ he, ih more hlt]

/-- The power of a value in range is in range. -/
theorem powLoop_inRange (fuel : Nat) :
    ∀ {result acc : Int} {e : Nat}, InRange result → InRange (powLoop fuel result acc e) := by
  induction fuel with
  | zero => exact fun h => h
  | succ fuel ih =>
    intro result acc e h
    unfold powLoop
    split
    · exact h
    · apply ih
      split
      · exact fxMul_inRange _ _
      · exact h

/-- The magnitude of an exponent has at most 32 bits (R115). -/
theorem natAbs_lt_of_inRange {n : Int} (h : InRange n) : n.natAbs < 2 ^ 32 := by
  simp only [InRange, minRaw, maxRaw] at h; omega

theorem powMagnitude_inRange (base n : Int) : InRange (powMagnitude base n) :=
  powLoop_inRange _ (by decide)

/-- One Newton round with a divisor of at least 1, as a sum that is not negative: the quotient, the sum
and the halved sum (R153, R154). -/
theorem newton_round_pos {a est : Int} (ha : 1 ≤ a) (he : 1 ≤ est) (hr : InRange est) :
    ∃ q, fxDiv a est = .ok q ∧ 0 ≤ q ∧ 1 ≤ fxAdd est q / 2 ∧ InRange (fxAdd est q / 2) := by
  refine ⟨sat32 (Int.tdiv (a * 65536) est), fxDiv_of_ne (by omega), ?_, ?_, ?_⟩
  · have : 0 ≤ Int.tdiv (a * 65536) est := Int.tdiv_nonneg (by omega) (by omega)
    simp only [sat32_eq, minRaw, maxRaw]; omega
  · have h0 : 0 ≤ Int.tdiv (a * 65536) est := Int.tdiv_nonneg (by omega) (by omega)
    by_cases h1 : est = 1
    · subst h1
      simp only [Int.tdiv_one, fxAdd, sat32_eq, minRaw, maxRaw]; omega
    · simp only [InRange, fxAdd, sat32_eq, minRaw, maxRaw] at *; omega
  · simp only [InRange, fxAdd, sat32_eq, minRaw, maxRaw] at *; omega

end Sys2Proof.Machine
end

