-- ==== Sys2Proof/Laws/State.lean ====
section
/-! SUPPORT. One lemma for each field and each update of the state: what the update leaves in the
field. -/

namespace Sys2Proof.Machine

variable (s : State)

@[simp] theorem setGen_regs (n : Fin 8) (w : Word) : (s.setGen n w).regs = s.regs.set n w := rfl
@[simp] theorem setGen_flagEq (n : Fin 8) (w : Word) : (s.setGen n w).flagEq = s.flagEq := rfl
@[simp] theorem setGen_flagLt (n : Fin 8) (w : Word) : (s.setGen n w).flagLt = s.flagLt := rfl
@[simp] theorem setGen_err (n : Fin 8) (w : Word) : (s.setGen n w).err = s.err := rfl
@[simp] theorem setGen_port (n : Fin 8) (w : Word) : (s.setGen n w).port = s.port := rfl
@[simp] theorem setGen_host (n : Fin 8) (w : Word) : (s.setGen n w).host = s.host := rfl
@[simp] theorem setGen_free (n : Fin 8) (w : Word) : (s.setGen n w).free = s.free := rfl

@[simp] theorem setErr_regs (c : CmdStatus) : (s.setErr c).regs = s.regs := rfl
@[simp] theorem setErr_flagEq (c : CmdStatus) : (s.setErr c).flagEq = s.flagEq := rfl
@[simp] theorem setErr_flagLt (c : CmdStatus) : (s.setErr c).flagLt = s.flagLt := rfl
@[simp] theorem setErr_err (c : CmdStatus) : (s.setErr c).err = c := rfl
@[simp] theorem setErr_port (c : CmdStatus) : (s.setErr c).port = s.port := rfl
@[simp] theorem setErr_host (c : CmdStatus) : (s.setErr c).host = s.host := rfl
@[simp] theorem setErr_free (c : CmdStatus) : (s.setErr c).free = s.free := rfl

@[simp] theorem raise_regs (e : CmdError) : (s.raise e).regs = s.regs := rfl
@[simp] theorem raise_flagEq (e : CmdError) : (s.raise e).flagEq = s.flagEq := rfl
@[simp] theorem raise_flagLt (e : CmdError) : (s.raise e).flagLt = s.flagLt := rfl
@[simp] theorem raise_err (e : CmdError) : (s.raise e).err = .raised e := rfl
@[simp] theorem raise_port (e : CmdError) : (s.raise e).port = s.port := rfl
@[simp] theorem raise_host (e : CmdError) : (s.raise e).host = s.host := rfl
@[simp] theorem raise_free (e : CmdError) : (s.raise e).free = s.free := rfl

@[simp] theorem setFlags_regs (a b : Int) : (s.setFlags a b).regs = s.regs := rfl
@[simp] theorem setFlags_flagEq (a b : Int) : (s.setFlags a b).flagEq = decide (a = b) := rfl
@[simp] theorem setFlags_flagLt (a b : Int) : (s.setFlags a b).flagLt = decide (a < b) := rfl
@[simp] theorem setFlags_err (a b : Int) : (s.setFlags a b).err = .ok := rfl
@[simp] theorem setFlags_port (a b : Int) : (s.setFlags a b).port = s.port := rfl
@[simp] theorem setFlags_host (a b : Int) : (s.setFlags a b).host = s.host := rfl
@[simp] theorem setFlags_free (a b : Int) : (s.setFlags a b).free = s.free := rfl

@[simp] theorem respond_regs (r : Response) : (s.respond r).regs = s.regs := rfl
@[simp] theorem respond_flagEq (r : Response) : (s.respond r).flagEq = s.flagEq := rfl
@[simp] theorem respond_flagLt (r : Response) : (s.respond r).flagLt = s.flagLt := rfl
@[simp] theorem respond_err (r : Response) : (s.respond r).err = s.err := rfl
@[simp] theorem respond_port (r : Response) : (s.respond r).port = .responding r := rfl
@[simp] theorem respond_host (r : Response) : (s.respond r).host = s.host := rfl
@[simp] theorem respond_free (r : Response) : (s.respond r).free = s.free := rfl

@[simp] theorem answerCommand_regs : s.answerCommand.regs = s.regs := rfl
@[simp] theorem answerCommand_flagEq : s.answerCommand.flagEq = s.flagEq := rfl
@[simp] theorem answerCommand_flagLt : s.answerCommand.flagLt = s.flagLt := rfl
@[simp] theorem answerCommand_err : s.answerCommand.err = s.err := rfl
@[simp] theorem answerCommand_port :
    s.answerCommand.port = .responding ⟨0#32, .done s.err⟩ := rfl
@[simp] theorem answerCommand_host : s.answerCommand.host = s.host := rfl
@[simp] theorem answerCommand_free : s.answerCommand.free = s.free := rfl

@[simp] theorem setHost_regs (h : List HostEvent) : (s.setHost h).regs = s.regs := rfl
@[simp] theorem setHost_flagEq (h : List HostEvent) : (s.setHost h).flagEq = s.flagEq := rfl
@[simp] theorem setHost_flagLt (h : List HostEvent) : (s.setHost h).flagLt = s.flagLt := rfl
@[simp] theorem setHost_err (h : List HostEvent) : (s.setHost h).err = s.err := rfl
@[simp] theorem setHost_port (h : List HostEvent) : (s.setHost h).port = s.port := rfl
@[simp] theorem setHost_host (h : List HostEvent) : (s.setHost h).host = h := rfl
@[simp] theorem setHost_free (h : List HostEvent) : (s.setHost h).free = s.free := rfl

@[simp] theorem setPort_regs (p : PortPhase) : (s.setPort p).regs = s.regs := rfl
@[simp] theorem setPort_flagEq (p : PortPhase) : (s.setPort p).flagEq = s.flagEq := rfl
@[simp] theorem setPort_flagLt (p : PortPhase) : (s.setPort p).flagLt = s.flagLt := rfl
@[simp] theorem setPort_err (p : PortPhase) : (s.setPort p).err = s.err := rfl
@[simp] theorem setPort_port (p : PortPhase) : (s.setPort p).port = p := rfl
@[simp] theorem setPort_host (p : PortPhase) : (s.setPort p).host = s.host := rfl
@[simp] theorem setPort_free (p : PortPhase) : (s.setPort p).free = s.free := rfl

@[simp] theorem resetBlock_flagEq : s.resetBlock.flagEq = false := rfl
@[simp] theorem resetBlock_flagLt : s.resetBlock.flagLt = false := rfl
@[simp] theorem resetBlock_err : s.resetBlock.err = .ok := rfl
@[simp] theorem resetBlock_port : s.resetBlock.port = .idle 0 := rfl
@[simp] theorem resetBlock_host : s.resetBlock.host = s.host := rfl
@[simp] theorem resetBlock_free : s.resetBlock.free = s.free + 1 := rfl

@[simp] theorem taken_regs (r : Response) : (s.taken r).regs = s.regs := rfl
@[simp] theorem taken_flagEq (r : Response) : (s.taken r).flagEq = s.flagEq := rfl
@[simp] theorem taken_flagLt (r : Response) : (s.taken r).flagLt = s.flagLt := rfl
@[simp] theorem taken_err (r : Response) : (s.taken r).err = s.err := rfl
@[simp] theorem taken_port (r : Response) : (s.taken r).port = .idle (s.readyAfter r) := rfl
@[simp] theorem taken_host (r : Response) : (s.taken r).host = s.host := rfl
@[simp] theorem taken_free (r : Response) : (s.taken r).free = s.free + 1 := rfl

/-- Updates that leave the registers alone leave every register's word alone. -/
@[simp] theorem setErr_word (c : CmdStatus) (r : Reg) : (s.setErr c).word r = s.word r := rfl
@[simp] theorem raise_word (e : CmdError) (r : Reg) : (s.raise e).word r = s.word r := rfl
@[simp] theorem setFlags_word (a b : Int) (r : Reg) : (s.setFlags a b).word r = s.word r := rfl
@[simp] theorem respond_word (p : Response) (r : Reg) : (s.respond p).word r = s.word r := rfl
@[simp] theorem answerCommand_word (r : Reg) : s.answerCommand.word r = s.word r := rfl
@[simp] theorem setHost_word (h : List HostEvent) (r : Reg) : (s.setHost h).word r = s.word r := rfl
@[simp] theorem setPort_word (p : PortPhase) (r : Reg) : (s.setPort p).word r = s.word r := rfl
@[simp] theorem taken_word (p : Response) (r : Reg) : (s.taken p).word r = s.word r := rfl

/-- A constant register reads as its constant in every state (R22, R181). -/
@[simp] theorem word_const (k : ConstReg) : s.word (.const k) = constWord k := rfl

/-- A written general register reads as the word written. -/
@[simp] theorem word_setGen_same (n : Fin 8) (w : Word) : (s.setGen n w).word (.gen n) = w := by
  simp [State.word]

/-- Writing a general register leaves every other register as it was. -/
theorem word_setGen_other (n : Fin 8) (w : Word) (r : Reg) (h : r ≠ .gen n) :
    (s.setGen n w).word r = s.word r := by
  cases r with
  | const k => rfl
  | gen m =>
    have hne : (n : Nat) ≠ m := fun e => h (by rw [Fin.ext e])
    simp [State.word, Vector.getElem_set_ne _ _ hne]

end Sys2Proof.Machine
end

