-- ==== Sys2Proof/Laws/Ops.lean ====
section
/-! SUPPORT. What the shared operations and the fifteen meanings can do: one lemma each, cited instead of
unfolding them. -/

namespace Sys2Proof.Machine

variable (s : State)

/-- A register's raw value is in range (R12, R31). -/
theorem raw_inRange (r : Reg) : InRange (s.raw r) := s32_inRange _

/-- Clipping is saturation (R9). -/
theorem clip_eq_sat32 (v : Int) : clip v = sat32 v := by rw [sat32_eq]; rfl

/-- A command that ends OK in a general register: its value there, and its frame. -/
theorem finish_ok (n : Fin 8) {v : Int} (h : InRange v) :
    s32 ((s.finish (.gen n) (.ok v)).word (.gen n)) = v ∧ WritesOnly n s (s.finish (.gen n) (.ok v)) := by
  refine ⟨?_, fun r hr => ?_, ⟨rfl, rfl⟩, ⟨rfl, rfl, rfl⟩, rfl⟩
  · simp only [State.finish, setErr_word, word_setGen_same]; exact s32_w32 v h
  · simp only [State.finish, setErr_word]; exact word_setGen_other s n _ r hr

/-- A command whose function errs: its frame. -/
theorem finish_error (n : Fin 8) (e : CmdError) : RaisesOnly e s (s.finish (.gen n) (.error e)) :=
  ⟨fun _ => rfl, ⟨rfl, rfl⟩, ⟨rfl, rfl, rfl⟩, rfl⟩

/-- A command with a constant as its destination is an illegal command (R65 check 4). -/
theorem finish_const (k : ConstReg) (r : Except CmdError Int) :
    s.finish (.const k) r = s.raise .illegalCommand := rfl

/-- The function a command with a destination evaluates on its sources, read from `s` (R63, R72). -/
def functionOf (i : Instr) : Except CmdError Int :=
  match i with
  | .add _ a b => .ok (fxAdd (s.raw a) (s.raw b))
  | .sub _ a b => .ok (fxSub (s.raw a) (s.raw b))
  | .mul _ a b => .ok (fxMul (s.raw a) (s.raw b))
  | .div _ a b => fxDiv (s.raw a) (s.raw b)
  | .pow _ a b => fxPow (s.raw a) (s.raw b)
  | .sqrt _ a => fxSqrt (s.raw a)
  | .abs _ a => .ok (fxAbs (s.raw a))
  | .min _ a b => .ok (fxMin (s.raw a) (s.raw b))
  | .max _ a b => .ok (fxMax (s.raw a) (s.raw b))
  | .clamp _ a b c => .ok (fxClamp (s.raw a) (s.raw b) (s.raw c))
  | .clamp01 _ a => .ok (fxClamp01 (s.raw a))
  | .lerp _ a b c => .ok (fxLerp (s.raw a) (s.raw b) (s.raw c))
  | .lerpu _ a b c => .ok (fxLerpu (s.raw a) (s.raw b) (s.raw c))
  | .cmp a _ => .ok (s.raw a)
  | .fromint _ a => .ok (fxFromInt (s.raw a))

/-- Every command with a destination ends by one `finish` of its function (R71). -/
theorem exec_of_dest {i : Instr} {rd : Reg} (h : i.dest = some rd) :
    exec i s = .next (s.finish rd (functionOf s i)) := by
  cases i <;> cases h <;> rfl

/-- The only command without a destination is CMP. -/
theorem dest_eq_none {i : Instr} (h : i.dest = none) : ∃ a b, i = .cmp a b := by
  cases i <;> first | exact ⟨_, _, rfl⟩ | cases h

/-- What a command can do, said once: it answers a next state, which is the old one with an error raised,
or with one general register written and ERR 0, or with the flags of a comparison and ERR 0. -/
theorem exec_cases (i : Instr) :
    ∃ t, exec i s = .next t ∧
      ((∃ e, t = s.raise e) ∨
        (∃ n v, i.dest = some (.gen n) ∧ t = (s.setGen n (w32 v)).setErr .ok) ∨
        (∃ a b, i = .cmp a b ∧ t = s.setFlags (s.raw a) (s.raw b))) := by
  cases hd : i.dest with
  | none =>
    obtain ⟨a, b, rfl⟩ := dest_eq_none hd
    exact ⟨_, rfl, .inr (.inr ⟨a, b, rfl, rfl⟩)⟩
  | some rd =>
    refine ⟨_, exec_of_dest s hd, ?_⟩
    cases rd with
    | const k => exact .inl ⟨_, rfl⟩
    | gen n =>
      cases hf : functionOf s i with
      | error e => exact .inl ⟨e, rfl⟩
      | ok v => exact .inr (.inl ⟨n, v, rfl, rfl⟩)

/-- What executing a word can do: a command's effect, or IllegalCommand. -/
theorem execute_cases (w : Word) :
    (∃ i, decode w = .ok i ∧ execute w s = exec i s) ∨
      (∃ e, decode w = .error e ∧ execute w s = .next (s.raise .illegalCommand)) := by
  cases h : decode w with
  | ok i => exact .inl ⟨i, rfl, by simp [execute, h]⟩
  | error e => exact .inr ⟨e, rfl, by simp [execute, h]⟩

/-- Executing a word answers a next state with the port, the host's events and the counter unchanged. -/
theorem execute_next (w : Word) : ∃ t, execute w s = .next t ∧ SameOutside s t := by
  rcases execute_cases s w with ⟨i, -, h⟩ | ⟨e, -, h⟩
  · obtain ⟨t, ht, hc⟩ := exec_cases s i
    refine ⟨t, h.trans ht, ?_⟩
    rcases hc with ⟨e, rfl⟩ | ⟨n, v, -, rfl⟩ | ⟨a, b, -, rfl⟩ <;> exact ⟨rfl, rfl, rfl⟩
  · exact ⟨_, h, rfl, rfl, rfl⟩

/-- A register's raw value is the signed reading of its word (R12). Cite it to rewrite rather than let the
two be compared by unfolding. -/
theorem raw_eq (r : Reg) : s.raw r = s32 (s.word r) := rfl

/-- A command that copies a source's raw value copies its word (R5). -/
theorem finish_copy (n : Fin 8) (r : Reg) :
    (s.finish (.gen n) (.ok (s.raw r))).word (.gen n) = s.word r := by
  rw [State.finish, setErr_word, word_setGen_same]; exact w32_s32 _

/-- The rescaling shift is the floor (R10). -/
theorem asr16_isFloorQuotient (p : Int) : IsFloorQuotient p (asr16 p) := by
  unfold IsFloorQuotient asr16; omega

/-- Lean's truncating division is the rule's (R11). -/
theorem tdiv_isTruncatedQuotient (n : Int) {d : Int} (hd : d ≠ 0) :
    IsTruncatedQuotient n d (Int.tdiv n d) := by
  refine ⟨Int.natAbs_tdiv .., fun h => ?_, fun h => ?_⟩
  · rcases lt_trichotomy n 0 with hn | rfl | hn
    · rcases lt_or_gt_of_ne hd with h' | h'
      · exact Int.mul_pos_of_neg_of_neg hn h'
      · have := Int.tdiv_nonneg (a := -n) (b := d) (by omega) (by omega)
        rw [Int.neg_tdiv] at this; omega
    · simp at h
    · rcases lt_or_gt_of_ne hd with h' | h'
      · have := Int.tdiv_nonneg (a := n) (b := -d) (by omega) (by omega)
        rw [Int.tdiv_neg] at this; omega
      · exact Int.mul_pos hn h'
  · rcases lt_trichotomy n 0 with hn | rfl | hn
    · rcases lt_or_gt_of_ne hd with h' | h'
      · have := Int.tdiv_nonneg (a := -n) (b := -d) (by omega) (by omega)
        rw [Int.neg_tdiv, Int.tdiv_neg] at this; omega
      · exact Int.mul_neg_of_neg_of_pos hn h'
    · simp at h
    · rcases lt_or_gt_of_ne hd with h' | h'
      · exact Int.mul_neg_of_pos_of_neg hn h'
      · have := Int.tdiv_nonneg (a := n) (b := d) (by omega) (by omega)
        omega

/-- The power's loop computes what the relation relates, fuel permitting (R116, R120). -/
theorem powLoop_powerLoop (fuel : Nat) :
    ∀ (r acc : Int) (e : Nat), e < 2 ^ fuel → PowerLoop r acc e (powLoop fuel r acc e) := by
  induction fuel with
  | zero =>
    intro r acc e h
    obtain rfl : e = 0 := by simpa using h
    exact .done _ _
  | succ f ih =>
    intro r acc e h
    by_cases he : e = 0
    · subst he; simpa using PowerLoop.done _ _
    · have hlt : e / 2 < 2 ^ f := by rw [Nat.pow_succ] at h; omega
      rw [powLoop_succ _ _ _ he]
      by_cases ho : e % 2 = 1
      · rw [if_pos ho]; exact .odd _ _ _ _ ho (ih _ _ _ hlt)
      · rw [if_neg ho]; exact .even _ _ _ _ he (by omega) (ih _ _ _ hlt)

/-- The power's loop ends with one value (R116). -/
theorem PowerLoop.unique {r acc : Int} {e : Nat} {v w : Int} (h : PowerLoop r acc e v) :
    PowerLoop r acc e w → v = w := by
  induction h with
  | done => intro h; cases h <;> first | rfl | omega
  | even r acc v e h1 h2 h3 ih => intro h; cases h <;> first | omega | (rename_i h; exact ih h)
  | odd r acc v e h1 h2 ih => intro h; cases h <;> first | omega | (rename_i h; exact ih h)

end Sys2Proof.Machine
end

