-- ==== Sys2Proof/Laws/PerInstr.lean ====
section
/-! SUPPORT. The family EncodedFields: for each command, the fields of its encoding. -/

namespace Sys2Proof.Laws

/-- The encoding of a command has its opcode, its first source's index in `rs1`, a zero byte of 0, and a
destination field that is the destination's index, or 0 for the command without one (R60, R63). -/
def EncodedFields.Statement (i : Instr) : Prop :=
  opcodeField (encode i) = opcode i ∧
  rdField (encode i) = (i.dest.map regIndex).getD 0 ∧
  rs1Field (encode i) = (i.sources[0]?.map regIndex).getD 0 ∧
  rs2Field (encode i) = (i.sources[1]?.map regIndex).getD 0 ∧
  rs3Field (encode i) = (i.sources[2]?.map regIndex).getD 0 ∧
  zeroField (encode i) = 0

/-- The fields of a word made of fields that fit. -/
theorem EncodedFields.of_fields {op d a b c : Nat} (ho : op < 256) (hd : d < 16) (ha : a < 16)
    (hb : b < 16) (hc : c < 16) :
    opcodeField (wordOfFields op d a b c) = op ∧ rdField (wordOfFields op d a b c) = d ∧
      rs1Field (wordOfFields op d a b c) = a ∧ rs2Field (wordOfFields op d a b c) = b ∧
      rs3Field (wordOfFields op d a b c) = c ∧ zeroField (wordOfFields op d a b c) = 0 :=
  ⟨opcodeField_wordOfFields ho hd ha hb hc, rdField_wordOfFields ho hd ha hb hc,
    rs1Field_wordOfFields ho hd ha hb hc, rs2Field_wordOfFields ho hd ha hb hc,
    rs3Field_wordOfFields ho hd ha hb hc, zeroField_wordOfFields ho hd ha hb hc⟩

/-- An opcode has 8 bits (R60). -/
theorem EncodedFields.opcode_lt (i : Instr) : opcode i < 256 := by cases i <;> simp [opcode]

/-- A register index has 4 bits (R60). -/
theorem EncodedFields.regIndex_lt16 (r : Reg) : regIndex r < 16 := Nat.lt_trans (regIndex_lt r) (by decide)

open EncodedFields

theorem EncodedFields.add (d a b : Reg) : Statement (.add d a b) :=
  of_fields (opcode_lt _) (regIndex_lt16 d) (regIndex_lt16 a) (regIndex_lt16 b) (by decide)
theorem EncodedFields.sub (d a b : Reg) : Statement (.sub d a b) :=
  of_fields (opcode_lt _) (regIndex_lt16 d) (regIndex_lt16 a) (regIndex_lt16 b) (by decide)
theorem EncodedFields.mul (d a b : Reg) : Statement (.mul d a b) :=
  of_fields (opcode_lt _) (regIndex_lt16 d) (regIndex_lt16 a) (regIndex_lt16 b) (by decide)
theorem EncodedFields.div (d a b : Reg) : Statement (.div d a b) :=
  of_fields (opcode_lt _) (regIndex_lt16 d) (regIndex_lt16 a) (regIndex_lt16 b) (by decide)
theorem EncodedFields.pow (d a b : Reg) : Statement (.pow d a b) :=
  of_fields (opcode_lt _) (regIndex_lt16 d) (regIndex_lt16 a) (regIndex_lt16 b) (by decide)
theorem EncodedFields.sqrt (d a : Reg) : Statement (.sqrt d a) :=
  of_fields (opcode_lt _) (regIndex_lt16 d) (regIndex_lt16 a) (by decide) (by decide)
theorem EncodedFields.abs (d a : Reg) : Statement (.abs d a) :=
  of_fields (opcode_lt _) (regIndex_lt16 d) (regIndex_lt16 a) (by decide) (by decide)
theorem EncodedFields.min (d a b : Reg) : Statement (.min d a b) :=
  of_fields (opcode_lt _) (regIndex_lt16 d) (regIndex_lt16 a) (regIndex_lt16 b) (by decide)
theorem EncodedFields.max (d a b : Reg) : Statement (.max d a b) :=
  of_fields (opcode_lt _) (regIndex_lt16 d) (regIndex_lt16 a) (regIndex_lt16 b) (by decide)
theorem EncodedFields.clamp (d a b c : Reg) : Statement (.clamp d a b c) :=
  of_fields (opcode_lt _) (regIndex_lt16 d) (regIndex_lt16 a) (regIndex_lt16 b) (regIndex_lt16 c)
theorem EncodedFields.clamp01 (d a : Reg) : Statement (.clamp01 d a) :=
  of_fields (opcode_lt _) (regIndex_lt16 d) (regIndex_lt16 a) (by decide) (by decide)
theorem EncodedFields.lerp (d a b c : Reg) : Statement (.lerp d a b c) :=
  of_fields (opcode_lt _) (regIndex_lt16 d) (regIndex_lt16 a) (regIndex_lt16 b) (regIndex_lt16 c)
theorem EncodedFields.lerpu (d a b c : Reg) : Statement (.lerpu d a b c) :=
  of_fields (opcode_lt _) (regIndex_lt16 d) (regIndex_lt16 a) (regIndex_lt16 b) (regIndex_lt16 c)
theorem EncodedFields.cmp (a b : Reg) : Statement (.cmp a b) :=
  of_fields (opcode_lt _) (by decide) (regIndex_lt16 a) (regIndex_lt16 b) (by decide)
theorem EncodedFields.fromint (d a : Reg) : Statement (.fromint d a) :=
  of_fields (opcode_lt _) (regIndex_lt16 d) (regIndex_lt16 a) (by decide) (by decide)

end Sys2Proof.Laws
end

