-- ==== Sys2Proof/Laws/Port.lean ====
section
/-! SUPPORT. What a transaction, the host's next event and a clock cycle can do, said once each. -/

namespace Sys2Proof.Machine

variable (s : State)

/-- What a transaction can do: it answers, leaving a response `p` to the request in a state `t` that is the
old one with one general register written, or the old one itself, or the end of a command. -/
theorem transact_cases (r : Request) :
    ∃ t p, transact r s = .next (t.respond p) ∧
      ((∃ n w, t = s.setGen n w ∧ p = ⟨0#32, .done .ok⟩) ∨
        (t = s ∧ p = rejected) ∨
        (t = s ∧ p = s.readPort r.addr) ∨
        (execute r.wdata s = .next t ∧ p = ⟨0#32, .done t.err⟩)) := by
  unfold transact
  split
  · split
    · exact ⟨_, _, rfl, .inl ⟨_, _, rfl, rfl⟩⟩
    · obtain ⟨t, ht, -⟩ := execute_next s r.wdata
      exact ⟨t, _, by rw [ht]; rfl, .inr (.inr (.inr ⟨ht, rfl⟩))⟩
    · exact ⟨_, _, rfl, .inr (.inl ⟨rfl, rfl⟩)⟩
    · exact ⟨_, _, rfl, .inr (.inl ⟨rfl, rfl⟩)⟩
    · exact ⟨_, _, rfl, .inr (.inl ⟨rfl, rfl⟩)⟩
  · exact ⟨_, _, rfl, .inr (.inr (.inl ⟨rfl, rfl⟩))⟩

/-- What a step can do: bring a transaction to its response, reset the block, take a response, or leave
the state as it is. -/
theorem step_cases :
    (∃ r h, step s = transact r (s.setHost h)) ∨
      (∃ h, step s = .next (s.resetBlock.setHost h)) ∨
      (∃ h, step s = .next ((s.setPort (.idle 0)).setHost h)) ∨
      step s = .next s := by
  unfold step advance hostEvent
  cases hp : s.port <;> simp only
  case busy r left => exact .inl ⟨r, s.host, rfl⟩
  all_goals
    cases hh : s.host with
    | nil => exact .inr (.inr (.inr rfl))
    | cons e rest =>
      cases e with
      | reset => exact .inr (.inl ⟨rest, rfl⟩)
      | request r => first | exact .inl ⟨r, rest, rfl⟩ | exact .inr (.inr (.inr rfl))
      | takeResponse => first | exact .inr (.inr (.inl ⟨rest, rfl⟩)) | exact .inr (.inr (.inr rfl))

/-- A latency is positive and within the implementation's bound (R185 b). -/
theorem latencyOf_bounds (r : Request) :
    1 ≤ s.latencyOf r ∧ s.latencyOf r ≤ Config.latencyBound + 1 := by
  unfold State.latencyOf Config.latency
  generalize Config.latencyFree r.write r.addr r.data (s.requestOperands r) = x
  have := Nat.mod_lt x (Nat.succ_pos Config.latencyBound)
  simp only [Nat.succ_eq_add_one] at this
  omega

/-- The latency of a read does not depend on its `wdata` (R47). -/
theorem latencyOf_read (a : BitVec 5) (d e : Word) :
    s.latencyOf ⟨false, a, d⟩ = s.latencyOf ⟨false, a, e⟩ := rfl

/-- What a read does does not depend on its `wdata` (R47). -/
theorem transact_read (a : BitVec 5) (d e : Word) :
    transact ⟨false, a, d⟩ s = transact ⟨false, a, e⟩ s := rfl

/-- What a clock cycle can do: reset, let time pass, take a response, or perform a transaction. -/
theorem cycle_cases (i : PinsIn) :
    cycle s i = .next s.resetBlock ∨
      (∃ p, cycle s i = .next (s.setPort p)) ∨
      (∃ r, cycle s i = .next (s.taken r)) ∨
      cycle s i = .next s ∨
      (∃ r, cycle s i = transact r s) := by
  unfold cycle passCycle
  split
  · exact .inl rfl
  · split
    · split
      · split
        · exact .inr (.inr (.inr (.inr ⟨_, rfl⟩)))
        · exact .inr (.inl ⟨_, rfl⟩)
      · exact .inr (.inr (.inr (.inl rfl)))
    · exact .inr (.inl ⟨_, rfl⟩)
    · split
      · exact .inr (.inr (.inr (.inr ⟨_, rfl⟩)))
      · exact .inr (.inl ⟨_, rfl⟩)
    · split
      · exact .inr (.inr (.inl ⟨_, rfl⟩))
      · exact .inr (.inr (.inr (.inl rfl)))

/-- What a word index names, read off its number (R41). -/
theorem location_cases (a : BitVec 5) :
    (∃ r, location a = .reg r ∧ a.toNat = regIndex r) ∨
      (location a = .cmd ∧ a = 0x10#5) ∨ (location a = .status ∧ a = 0x11#5) ∨
      (location a = .reserved ∧ 13 ≤ a.toNat ∧ a ≠ 0x10#5 ∧ a ≠ 0x11#5) := by
  unfold location
  cases h : regOfIndex a.toNat with
  | some r => exact .inl ⟨r, rfl, (regIndex_of_regOfIndex h).symm⟩
  | none =>
    have hlt : ¬ a.toNat ≤ 12 := fun hle => by
      have := regOfIndex_isSome.2 hle
      rw [h] at this; cases this
    by_cases h1 : a = 0x10#5
    · exact .inr (.inl ⟨by simp [h1], h1⟩)
    · by_cases h2 : a = 0x11#5
      · exact .inr (.inr (.inl ⟨by simp [h2], h2⟩))
      · exact .inr (.inr (.inr ⟨by simp [h1, h2], by omega, h1, h2⟩))

/-- A transaction does not depend on the phase the port is in when it is performed. -/
theorem transact_setPort (r : Request) (p : PortPhase) : transact r (s.setPort p) = transact r s := by
  have he : ∀ i, ∃ t, exec i s = .next t ∧ exec i (s.setPort p) = .next (t.setPort p) := by
    intro i
    cases hd : i.dest with
    | none => obtain ⟨a, b, rfl⟩ := dest_eq_none hd; exact ⟨_, rfl, rfl⟩
    | some d =>
      refine ⟨_, exec_of_dest s hd, ?_⟩
      rw [exec_of_dest _ hd, show functionOf (s.setPort p) i = functionOf s i by cases i <;> rfl]
      cases d with
      | const k => rfl
      | gen n => cases functionOf s i <;> rfl
  have hx : ∃ t, execute r.wdata s = .next t ∧ execute r.wdata (s.setPort p) = .next (t.setPort p) := by
    unfold execute
    cases decode r.wdata with
    | ok i => exact he i
    | error e => exact ⟨_, rfl, rfl⟩
  unfold transact
  split
  · split
    · rfl
    · obtain ⟨t, h1, h2⟩ := hx
      rw [h1, h2]; rfl
    all_goals rfl
  · have : (s.setPort p).readPort r.addr = s.readPort r.addr := by
      unfold State.readPort; split <;> rfl
    rw [this]; rfl

/-- Every clock cycle answers a next state. -/
theorem cycle_next (i : PinsIn) : ∃ t, cycle s i = .next t := by
  rcases cycle_cases s i with h | ⟨_, h⟩ | ⟨_, h⟩ | h | ⟨r, h⟩
  case inr.inr.inr.inr => obtain ⟨t, p, ht, -⟩ := transact_cases s r; exact ⟨_, h.trans ht⟩
  all_goals exact ⟨_, h⟩

/-- Any number of clock cycles answers a next state. -/
theorem cycles_next (ins : List PinsIn) : ∃ t, cycles s ins = .next t := by
  induction ins generalizing s with
  | nil => exact ⟨s, rfl⟩
  | cons i l ih =>
    obtain ⟨u, hu⟩ := cycle_next s i
    rw [cycles, hu]
    exact ih u

end Sys2Proof.Machine
end

