-- ==== Sys2Proof/Tests/Slice0.lean ====
section
/-! SUPPORT. The model's own tests: expected words are those of spec/95_test_vectors.md and of the worked
examples in the rules, not the model's answers. At the end, a witness for every statement that has
hypotheses. -/

namespace Sys2Proof.Tests

open Sys2Proof.Machine

/-! ### Helpers -/

/-- The start of the tables of spec/95_test_vectors.md section 2: r0, r1, r2 as given, r7 preset, the other
general registers holding the preset word too. -/
def start (r0 r1 r2 : Word) : State :=
  { State.reset with regs := #v[r0, r1, r2, 0xDEADBEEF#32, 0xDEADBEEF#32, 0xDEADBEEF#32, 0xDEADBEEF#32,
      0xDEADBEEF#32] }

/-- r7 and the STATUS word after a command word is executed. -/
def after (o : Outcome) : Option (Word × Word) :=
  match o with
  | .next t => some (t.word (.gen 7), t.statusWord)
  | .fault _ => none
  | .refused _ => none

/-- The port, and what an outcome answers there. -/
def answer (o : Outcome) : Option PortPhase :=
  match o with
  | .next t => some t.port
  | .fault _ => none
  | .refused _ => none

/-- The state an outcome answers. -/
def nextState (o : Outcome) : Option State :=
  match o with
  | .next t => some t
  | .fault _ => none
  | .refused _ => none

/-! ### Well-formedness: the one check, with an ill-formed term for each constructor that has it -/

theorem test_wf_constant_destination_refused :
    [Instr.add (.const .zero) (.gen 0) (.gen 1), .sub (.const .one) (.gen 0) (.gen 1),
      .mul (.const .minusOne) (.gen 0) (.gen 1), .div (.const .max) (.gen 0) (.gen 1),
      .pow (.const .min) (.gen 0) (.gen 1), .sqrt (.const .zero) (.gen 0), .abs (.const .one) (.gen 0),
      .min (.const .zero) (.gen 0) (.gen 1), .max (.const .zero) (.gen 0) (.gen 1),
      .clamp (.const .zero) (.gen 0) (.gen 1) (.gen 2), .clamp01 (.const .zero) (.gen 0),
      .lerp (.const .zero) (.gen 0) (.gen 1) (.gen 2), .lerpu (.const .zero) (.gen 0) (.gen 1) (.gen 2),
      .fromint (.const .zero) (.gen 0)].map Instr.wf = List.replicate 14 false := by decide

theorem test_wf_constant_sources_accepted :
    (Instr.add (.gen 7) (.const .zero) (.const .min)).wf = true ∧
      (Instr.cmp (.const .min) (.const .max)).wf = true := by decide

/-! ### Decoding: a word of each command, written out from rules R60 and R63 -/

theorem test_decode_add : decode 0x01201000#32 = .ok (.add (.gen 2) (.gen 0) (.gen 1)) := by decide
theorem test_decode_sub : decode 0x02661000#32 = .ok (.sub (.gen 6) (.gen 6) (.gen 1)) := by decide
theorem test_decode_mul :
    decode 0x034CA000#32 = .ok (.mul (.gen 4) (.const .min) (.const .minusOne)) := by decide
theorem test_decode_div : decode 0x04708000#32 = .ok (.div (.gen 7) (.gen 0) (.const .zero)) := by decide
theorem test_decode_pow : decode 0x057C6000#32 = .ok (.pow (.gen 7) (.const .min) (.gen 6)) := by decide
theorem test_decode_sqrt : decode 0x06710000#32 = .ok (.sqrt (.gen 7) (.gen 1)) := by decide
theorem test_decode_abs : decode 0x072C0000#32 = .ok (.abs (.gen 2) (.const .min)) := by decide
theorem test_decode_min : decode 0x08122000#32 = .ok (.min (.gen 1) (.gen 2) (.gen 2)) := by decide
theorem test_decode_max : decode 0x09201000#32 = .ok (.max (.gen 2) (.gen 0) (.gen 1)) := by decide
theorem test_decode_clamp :
    decode 0x0A301200#32 = .ok (.clamp (.gen 3) (.gen 0) (.gen 1) (.gen 2)) := by decide
theorem test_decode_clamp01 : decode 0x0B420000#32 = .ok (.clamp01 (.gen 4) (.gen 2)) := by decide
theorem test_decode_lerp :
    decode 0x0C301200#32 = .ok (.lerp (.gen 3) (.gen 0) (.gen 1) (.gen 2)) := by decide
theorem test_decode_lerpu :
    decode 0x0D601300#32 = .ok (.lerpu (.gen 6) (.gen 0) (.gen 1) (.gen 3)) := by decide
theorem test_decode_cmp : decode 0x0E00B000#32 = .ok (.cmp (.gen 0) (.const .max)) := by decide
theorem test_decode_fromint : decode 0x0F690000#32 = .ok (.fromint (.gen 6) (.const .one)) := by decide

/-- The illegal rows of the table "Command words: legal and illegal". -/
theorem test_decode_rejects :
    [0x017D0000#32, 0x0170F000#32, 0x01801000#32, 0x01C01000#32, 0x01F01000#32, 0x01201100#32,
      0x01201001#32, 0x06711000#32, 0x0A7012D0#32, 0x0A701D00#32, 0x0E101000#32, 0x0E001100#32,
      0x00000000#32, 0x10000000#32, 0xFFFFFFFF#32, 0x04708100#32, 0x06FA0000#32].map
        (fun w => match decode w with | .ok _ => none | .error e => some e) =
      [.sourceNamesNoRegister, .sourceNamesNoRegister, .destinationIsConstant, .destinationIsConstant,
        .destinationNamesNoRegister, .unusedFieldNotZero, .zeroByteNotZero, .unusedFieldNotZero,
        .zeroByteNotZero, .sourceNamesNoRegister, .compareHasDestination, .unusedFieldNotZero,
        .reservedOpcode, .reservedOpcode, .zeroByteNotZero, .unusedFieldNotZero,
        .destinationNamesNoRegister].map some := by decide

theorem test_legal_agrees_on_the_table :
    [0x01201000#32, 0x01001000#32, 0x01789000#32, 0x017CC000#32, 0x06710000#32, 0x0A701200#32,
      0x0E001000#32, 0x0F700000#32, 0x04708000#32].map legal = List.replicate 9 true ∧
    [0x017D0000#32, 0x01801000#32, 0x01F01000#32, 0x01201100#32, 0x01201001#32, 0x06711000#32,
      0x0A701D00#32, 0x0E101000#32, 0x00000000#32, 0x10000000#32].map legal = List.replicate 10 false := by
  decide

theorem test_encode :
    encode (.lerp (.gen 3) (.gen 0) (.gen 1) (.gen 2)) = 0x0C301200#32 ∧
    encode (.cmp (.gen 0) (.const .one)) = 0x0E009000#32 ∧
    encode (.sqrt (.gen 1) (.gen 0)) = 0x06100000#32 ∧
    encode (neg (.gen 1) (.const .min)) = 0x0218C000#32 ∧
    encode (mov (.gen 1) (.const .one)) = 0x08199000#32 := by decide

/-- Assembler lines of the programs P1, P2 and P5. -/
theorem test_assemble :
    (assemble "MUL" ["r2", "r0", "r0"]).map encode = some 0x03200000#32 ∧
    (assemble "LERPU" ["r6", "r0", "r1", "r2"]).map encode = some 0x0D601200#32 ∧
    (assemble "NEG" ["r1", "kmin"]).map encode = some 0x0218C000#32 ∧
    (assemble "CMP" ["r0", "kmax"]).map encode = some 0x0E00B000#32 ∧
    assemble "ADD" ["k0", "r0", "r1"] = none ∧ assemble "ADD" ["r0", "r1"] = none := by decide

/-! ### The commands: rows of spec/95_test_vectors.md section 2, executed as the words given there -/

theorem test_add_clips : after (execute 0x01701000#32 (start 0x7FFF0000#32 0x00010000#32 0#32)) =
    some (0x7FFFFFFF#32, 0#32) := by decide
theorem test_add_exact : after (execute 0x01701000#32 (start 0x7FFFFFFF#32 0x80000000#32 0#32)) =
    some (0xFFFFFFFF#32, 0#32) := by decide
theorem test_sub_negates_min : after (execute 0x02701000#32 (start 0#32 0x80000000#32 0#32)) =
    some (0x7FFFFFFF#32, 0#32) := by decide
theorem test_sub_order : after (execute 0x02701000#32 (start 0x00050000#32 0x00070000#32 0#32)) =
    some (0xFFFE0000#32, 0#32) := by decide
theorem test_mul_floors : after (execute 0x03701000#32 (start 0x00000003#32 0xFFFF8000#32 0#32)) =
    some (0xFFFFFFFE#32, 0#32) := by decide
theorem test_mul_clips : after (execute 0x03701000#32 (start 0x00B60000#32 0x00B60000#32 0#32)) =
    some (0x7FFFFFFF#32, 0#32) := by decide
theorem test_div_truncates : after (execute 0x04701000#32 (start 0xFFFF0000#32 0x00030000#32 0#32)) =
    some (0xFFFFAAAB#32, 0#32) := by decide
theorem test_div_by_zero : after (execute 0x04701000#32 (start 0#32 0#32 0#32)) =
    some (0xDEADBEEF#32, 1#32) := by decide
theorem test_pow_low_bits : after (execute 0x05701000#32 (start 0x0001199A#32 0x0000000A#32 0#32)) =
    some (0x00029802#32, 0#32) := by decide
theorem test_pow_most_negative : after (execute 0x05701000#32 (start 0xFFFF0000#32 0x80000000#32 0#32)) =
    some (0x00010000#32, 0#32) := by decide +kernel
theorem test_sqrt_not_converged : after (execute 0x06700000#32 (start 0x7FFFFFFF#32 0#32 0#32)) =
    some (0x0215233D#32, 0#32) := by decide
theorem test_sqrt_negative : after (execute 0x06700000#32 (start 0xFFFFFFFF#32 0#32 0#32)) =
    some (0xDEADBEEF#32, 2#32) := by decide
theorem test_abs_min : after (execute 0x07700000#32 (start 0x80000000#32 0#32 0#32)) =
    some (0x7FFFFFFF#32, 0#32) := by decide
theorem test_abs_negative : after (execute 0x07700000#32 (start 0xFFFB0000#32 0#32 0#32)) =
    some (0x00050000#32, 0#32) := by decide
theorem test_min_signed : after (execute 0x08701000#32 (start 0x80000000#32 0x7FFFFFFF#32 0#32)) =
    some (0x80000000#32, 0#32) := by decide
theorem test_max_signed : after (execute 0x09701000#32 (start 0xFFFFFFFF#32 0x00000000#32 0#32)) =
    some (0x00000000#32, 0#32) := by decide
theorem test_clamp_lo_above_hi :
    after (execute 0x0A701200#32 (start 0x00020000#32 0x00050000#32 0x00030000#32)) =
    some (0x00050000#32, 0#32) := by decide
theorem test_clamp_lo_above_hi_equal :
    after (execute 0x0A701200#32 (start 0x00050000#32 0x00050000#32 0x00030000#32)) =
    some (0x00030000#32, 0#32) := by decide
theorem test_clamp01_above : after (execute 0x0B700000#32 (start 0x00010001#32 0#32 0#32)) =
    some (0x00010000#32, 0#32) := by decide
theorem test_clamp01_below : after (execute 0x0B700000#32 (start 0x80000000#32 0#32 0#32)) =
    some (0x00000000#32, 0#32) := by decide
theorem test_lerp_end_point_clipped :
    after (execute 0x0C701200#32 (start 0x80000000#32 0x7FFFFFFF#32 0x00010000#32)) =
    some (0xFFFFFFFF#32, 0#32) := by decide
theorem test_lerp_floors_descending :
    after (execute 0x0C701200#32 (start 0x00000003#32 0x00000000#32 0x00008000#32)) =
    some (0x00000001#32, 0#32) := by decide
theorem test_lerpu_extrapolates :
    after (execute 0x0D701200#32 (start 0x000A0000#32 0x00140000#32 0xFFFF8000#32)) =
    some (0x00050000#32, 0#32) := by decide
theorem test_lerpu_clips_each_step :
    after (execute 0x0D701200#32 (start 0x7FFFFFFF#32 0x00000000#32 0x00020000#32)) =
    some (0xFFFFFFFF#32, 0#32) := by decide
theorem test_cmp_signed : after (execute 0x0E001000#32 (start 0x80000000#32 0x7FFFFFFF#32 0#32)) =
    some (0xDEADBEEF#32, 0x00000200#32) := by decide
theorem test_cmp_equal : after (execute 0x0E001000#32 (start 0x00010000#32 0x00010000#32 0#32)) =
    some (0xDEADBEEF#32, 0x00000100#32) := by decide
theorem test_fromint_clips : after (execute 0x0F700000#32 (start 0xFFFF7FFF#32 0#32 0#32)) =
    some (0x80000000#32, 0#32) := by decide
theorem test_fromint_largest : after (execute 0x0F700000#32 (start 0x00007FFF#32 0#32 0#32)) =
    some (0x7FFF0000#32, 0#32) := by decide
theorem test_illegal_before_divide_by_zero :
    after (execute 0x04708100#32 (start 0x00010000#32 0#32 0#32)) = some (0xDEADBEEF#32, 3#32) := by decide

/-! ### The port: rows of the table "Port transactions" -/

/-- The start of that table: ERR = 1, LT = 1. -/
def portStart (r : Request) : State :=
  { start 0x00010000#32 0xDEADBEEF#32 0xDEADBEEF#32 with
    flagLt := true, err := .raised .divideByZero, host := [.request r] }

theorem test_read_status : answer (step (portStart ⟨false, 0x11#5, 0#32⟩)) =
    some (.responding ⟨0x00000201#32, .done .ok⟩) := by decide
theorem test_read_constants :
    [0x08#5, 0x09#5, 0x0A#5, 0x0B#5, 0x0C#5].map (fun a => answer (step (portStart ⟨false, a, 0#32⟩))) =
    [0x00000000#32, 0x00010000#32, 0xFFFF0000#32, 0x7FFFFFFF#32, 0x80000000#32].map
      (fun w => some (.responding ⟨w, .done .ok⟩)) := by decide
theorem test_rejected_accesses :
    [⟨false, 0x0D#5, 0#32⟩, ⟨false, 0x10#5, 0#32⟩, ⟨false, 0x1F#5, 0#32⟩, ⟨true, 0x08#5, 1#32⟩,
      ⟨true, 0x0C#5, 0#32⟩, ⟨true, 0x0D#5, 0#32⟩, ⟨true, 0x11#5, 0#32⟩, ⟨true, 0x1F#5, 0#32⟩].map
        (fun r => answer (step (portStart r))) =
    List.replicate 8 (some (.responding ⟨0#32, .illegalAccess⟩)) := by decide
theorem test_write_register :
    (nextState (step (portStart ⟨true, 0x03#5, 0x12345678#32⟩))).map
      (fun t => (t.word (.gen 3), t.statusWord)) = some (0x12345678#32, 0x00000201#32) := by decide
theorem test_command_keeps_lt_and_clears_err :
    (nextState (step (portStart (commandRequest 0x01200000#32)))).map
      (fun t => (t.word (.gen 2), t.statusWord, t.port)) =
    some (0x00020000#32, 0x00000200#32, .responding ⟨0#32, .done .ok⟩) := by decide
theorem test_illegal_command_keeps_lt :
    (nextState (step (portStart (commandRequest 0#32)))).map (fun t => (t.statusWord, t.port)) =
    some (0x00000203#32, .responding ⟨0#32, .done (.raised .illegalCommand)⟩) := by decide
theorem test_idle_block_changes_nothing : nextState (step State.reset) = some State.reset := by decide
theorem test_with_fetch_word_runs_first :
    after (step (State.reset.withFetchWord 32 0x01789000)) = some (0x00010000#32, 0#32) := by decide
theorem test_decode_table_word :
    decodeTableWord 32 0x01201000 = some (.add (.gen 2) (.gen 0) (.gen 1)) ∧
    decodeTableWord 32 0 = none := by decide

/-! ### Host side: examples E9 and E10 -/

theorem test_raw_of_decimal_literals :
    rawOfFraction 314159 100000 = some 205887 ∧ rawOfFraction 1 10 = some 6553 ∧
    rawOfFraction (-1) 10 = some (-6553) ∧ rawOfFraction 32768 1 = none := by decide
theorem test_text_of_pi : textForm 205887 = "3.1416" := by decide +kernel
theorem test_text_of_negative : textForm (-205887) =
    signText (Config.textSignBefore (-205887)) ++ "3.1416" ++ signText (Config.textSignAfter (-205887)) := by
  have h : textOfMagnitude (textTenThousandths (-205887)).natAbs = "3.1416" := by decide +kernel
  rw [textForm, if_pos (by decide), h]

/-! ### Witnesses: for each statement with hypotheses, and each of its clauses, operands and a state that
meet them together -/

/-- The registers r0 … r2 that the witnesses set, r0 the first operand. -/
abbrev r0 : Reg := .gen 0
abbrev r1 : Reg := .gen 1
abbrev r2 : Reg := .gen 2

theorem witness_DecodeOfEncodeIsTheCommand :
    (Instr.clamp (.gen 7) (.const .min) (.gen 0) (.const .max)).wf = true ∧
      (Instr.cmp (.const .zero) (.gen 7)).wf = true := by decide
theorem witness_DecodedWordIsTheEncoding :
    decode 0x0C301200#32 = .ok (.lerp (.gen 3) (.gen 0) (.gen 1) (.gen 2)) := by decide
theorem witness_LegalWordSpellsItsRowOnly : decode 0x0E00B000#32 = .ok (.cmp (.gen 0) (.const .max)) := by
  decide
theorem witness_IllegalCommandIffWordNotLegal : ¬ LegalCommand 0#32 ∧ LegalCommand 0x01201000#32 :=
  ⟨fun h => absurd h.opcode (by decide),
    ⟨by decide, by decide, by decide, by decide, by decide, by decide⟩⟩
theorem witness_ConstantDestinationIsIllegal :
    (Instr.sqrt (.const .zero) (.gen 0)).dest = some (.const .zero) := by decide
theorem witness_DivGivesTheClippedTruncatedQuotient :
    s32 ((start 1#32 1#32 0#32).word r1) ≠ 0 ∧ s32 ((start 1#32 0#32 0#32).word r1) = 0 := by decide
theorem witness_PowGivesTheLoopsResult_not_negative : 0 ≤ s32 ((start 2#32 0#32 0#32).word r1) := by decide
theorem witness_PowGivesTheLoopsResult_inverted :
    s32 ((start 0x00020000#32 0xFFFFFFFF#32 0#32).word r1) < 0 ∧
      PowerLoop 65536 (s32 ((start 0x00020000#32 0xFFFFFFFF#32 0#32).word r0)) 1 131072 ∧
      (131072 : Int) ≠ 0 :=
  ⟨by decide, .odd _ _ _ _ (by decide) (.done _ _), by decide⟩
theorem witness_PowGivesTheLoopsResult_raises :
    s32 ((start 0#32 0xFFFFFFFF#32 0#32).word r1) < 0 ∧
      PowerLoop 65536 (s32 ((start 0#32 0xFFFFFFFF#32 0#32).word r0)) 1 0 :=
  ⟨by decide, .odd _ _ _ _ (by decide) (.done _ _)⟩
theorem witness_PowAtExponentsZeroOneAndMinusOne :
    (start 5#32 0#32 0#32).word r1 = 0#32 ∧ (start 5#32 1#32 0#32).word r1 = 1#32 ∧
      (start 5#32 0xFFFFFFFF#32 0#32).word r1 = 0xFFFFFFFF#32 ∧
      (start 0#32 0xFFFFFFFF#32 0#32).word r0 = 0#32 ∧
      s32 ((start 0#32 0xFFFFFFFF#32 0#32).word r1) < 0 := by decide
theorem witness_NegativePowerNeedsNegativeBaseAndOddExponent :
    ∃ s t : State, 0 ≤ s32 (s.word r1) ∧ exec (.pow r2 r0 r1) s = .next t ∧ s32 (t.word r2) < 0 :=
  ⟨start 0xFFFF0000#32 1#32 0#32, _, by decide, rfl, by decide⟩
theorem witness_SqrtGivesTheSixthNewtonIterate :
    s32 ((start 0#32 0#32 0#32).word r0) = 0 ∧ 0 < s32 ((start 1#32 0#32 0#32).word r0) ∧
      s32 ((start 0xFFFFFFFF#32 0#32 0#32).word r0) < 0 := by decide
theorem witness_CmpSetsEqAndLt : (1 : Fin 16) ≠ 0 ∧ (15 : Fin 16) ≠ 0 := by decide
theorem witness_SubUndoesAddUnlessTheSumSaturates : r1 ≠ .gen 2 := by decide
theorem witness_CommandsWriteOnlyTheirDestination :
    (Instr.add r2 r0 r1).dest ≠ some r0 ∧ ∀ a b, Instr.add r2 r0 r1 ≠ .cmp a b :=
  ⟨by decide, by simp⟩
theorem witness_FailingCommandChangesOnlyErr :
    ∃ t : State, execute 0x04701000#32 (start 0#32 0#32 0#32) = .next t ∧
      t.err = .raised .divideByZero := ⟨_, rfl, by decide⟩
theorem witness_DivideByZeroOnlyFromDivAndPow :
    (Instr.div r2 r0 r1).wf = true ∧ (Instr.pow r2 r0 r1).wf = true := by decide
theorem witness_DomainErrorOnlyFromSqrtOfNegative : (Instr.sqrt r2 r0).wf = true := by decide
theorem witness_ResultDependsOnSourcesOnly :
    ∀ r ∈ (Instr.add r2 r0 r1).sources,
      (start 1#32 2#32 3#32).word r = (start 1#32 2#32 4#32).word r := by decide

/-- A state whose host's next event is given. -/
def offered (e : HostEvent) : State := { start 1#32 2#32 3#32 with host := [e] }

theorem witness_StepRunsTheDecodedCommand :
    decode 0x01201000#32 = .ok (.add r2 r0 r1) ∧
    (∃ t, exec (.add r2 r0 r1) { offered (.request (commandRequest 0x01201000#32)) with host := [] } =
      .next t) ∧
    (∃ t, exec (.add r2 r0 r1)
      { offered .reset with port := .busy (commandRequest 0x01201000#32) 3 } = .next t) ∧
    (∃ t, exec (.add r2 r0 r1) { offered .reset with port := .idle 0 } = .next t) :=
  ⟨by decide, ⟨_, rfl⟩, ⟨_, rfl⟩, ⟨_, rfl⟩⟩
theorem witness_StepOnIllegalWordRaises :
    ¬ LegalCommand 0x10000000#32 ∧ (offered (.request (commandRequest 0x10000000#32))).port = .idle 0 ∧
      (offered (.request (commandRequest 0x10000000#32))).host =
        .request (commandRequest 0x10000000#32) :: [] :=
  ⟨fun h => absurd h.opcode (by decide), rfl, rfl⟩
theorem witness_ReadsAnswerAndChangeNothing :
    (offered (.request ⟨false, 0x0C#5, 0#32⟩)).port = .idle 0 ∧
      (offered (.request ⟨false, 0x0C#5, 0#32⟩)).host = [.request ⟨false, 0x0C#5, 0#32⟩] ∧
      (0x0C#5).toNat = regIndex (.const .min) ∧ (0x00#5).toNat = regIndex (.gen 0) := by decide
theorem witness_RegisterWritesStoreVerbatim :
    (offered (.request ⟨true, 0x07#5, 9#32⟩)).port = .idle 0 ∧ (0x07#5).toNat = (7 : Fin 8).val ∧
      (offered (.request ⟨true, 0x07#5, 9#32⟩)).host = [.request ⟨true, 0x07#5, 9#32⟩] := by decide
theorem witness_RejectedAccessChangesNothing :
    (offered (.request ⟨true, 0x08#5, 9#32⟩)).port = .idle 0 ∧
      (offered (.request ⟨true, 0x08#5, 9#32⟩)).host = [.request ⟨true, 0x08#5, 9#32⟩] ∧
      answer (step (offered (.request ⟨true, 0x08#5, 9#32⟩))) =
        some (.responding ⟨0#32, .illegalAccess⟩) := by decide

/-- A state with an offered response. -/
def answering (e : HostEvent) : State := { offered e with port := .responding ⟨7#32, .done .ok⟩ }

theorem witness_OneTransactionOutstanding :
    (answering .takeResponse).port = .responding ⟨7#32, .done .ok⟩ ∧
      (answering .takeResponse).host = .takeResponse :: [] ∧
      (answering (.request ⟨false, 0#5, 0#32⟩)).host = .request ⟨false, 0#5, 0#32⟩ :: [] := by decide
theorem witness_ResetClearsFlagsAndErr :
    (∀ r left, (answering .reset).port ≠ .busy r left) ∧ (answering .reset).host = .reset :: [] :=
  ⟨by simp [answering], rfl⟩
theorem witness_Inv : Inv (answering .takeResponse) :=
  ⟨by unfold FlagsExclusive; decide, fun r hr => by
    cases hr; exact ⟨fun h => absurd rfl h, fun e h => by cases h⟩⟩
theorem witness_StepKeepsTheInvariant :
    Inv (answering .takeResponse) ∧ ∃ t, step (answering .takeResponse) = .next t :=
  ⟨witness_Inv, _, rfl⟩
theorem witness_CyclesKeepTheInvariant :
    Inv (answering .takeResponse) ∧ BusyWithinBound (answering .takeResponse) :=
  ⟨witness_Inv, fun r left h => by cases h⟩

/-- A cycle in which the host offers the request of a command and would take a response. -/
def offering (w : Word) : PinsIn := ⟨false, true, true, 0x10#5, w, true⟩

/-- The samples that follow an accepted request up to the end of its latency. -/
def waiting (s : State) (i : PinsIn) : List PinsIn := List.replicate (s.latencyOf i.request - 1) i

theorem witness_AcceptedRequestIsAnsweredAfterItsLatency (w : Word) :
    (start 1#32 2#32 3#32).port = .idle 0 ∧ (offering w).rst = false ∧ (offering w).reqValid = true ∧
      (∀ j ∈ waiting (start 1#32 2#32 3#32) (offering w), j.rst = false) ∧
      (waiting (start 1#32 2#32 3#32) (offering w)).length + 1 =
        (start 1#32 2#32 3#32).latencyOf (offering w).request := by
  have h := latencyOf_bounds (start 1#32 2#32 3#32) (offering w).request
  refine ⟨rfl, rfl, rfl, fun j hj => ?_, ?_⟩
  · rw [(List.mem_replicate.1 hj).2]; rfl
  · rw [waiting, List.length_replicate]; omega
theorem witness_CyclesRefineTheStep (w : Word) :
    ∃ t, cycles (start 1#32 2#32 3#32)
      (offering w :: waiting (start 1#32 2#32 3#32) (offering w)) = .next t := cycles_next _ _
theorem witness_RequestPinsIgnoredWhileOutstanding :
    (∀ k, (answering .reset).port ≠ .idle k) ∧
      (∀ k, ({ offered .reset with port := .busy (commandRequest 0#32) 2 } : State).port ≠ .idle k) ∧
      (offering 0#32).rst = (offering 1#32).rst ∧
      (offering 0#32).rspReady = (offering 1#32).rspReady :=
  ⟨by simp [answering], by simp, rfl, rfl⟩
theorem witness_IdleBlockBecomesReady :
    ({ start 1#32 2#32 3#32 with port := .idle 2 } : State).port = .idle 2 ∧
      [offering 0#32, offering 1#32].length = 2 ∧
      ∀ j ∈ [offering 0#32, offering 1#32], j.rst = false := by decide
theorem witness_ReadyAtOnceAfterACommandError :
    ({ start 1#32 2#32 3#32 with port := .responding ⟨0#32, .done (.raised .domainError)⟩ } : State).port =
      .responding ⟨0#32, .done (.raised .domainError)⟩ ∧
      (offering 0#32).rst = false ∧ (offering 0#32).rspReady = true := by decide
theorem witness_ResetPinAbandonsTheTransaction :
    ({ offering 0#32 with rst := true } : PinsIn).rst = true ∧ (offering 0#32).rst = false := by decide
theorem witness_RawOfFractionIsWithinOneUnit :
    0 < 10 ∧ rawOfFraction (-1) 10 = some (-6553) ∧ rawOfFraction (-32768) 1 = some (-2147483648) := by decide
theorem witness_OfferedResponseStaysUntilTaken :
    (answering .reset).port = .responding ⟨7#32, .done .ok⟩ ∧
      (∀ j ∈ [{ offering 0#32 with rspReady := false }, { offering 1#32 with rspReady := false }],
        j.rst = false ∧ j.rspReady = false) ∧
      (offering 0#32).rst = false ∧ (offering 0#32).rspReady = true := by decide
theorem witness_ReadIgnoresItsData :
    (start 1#32 2#32 3#32).port = .idle 0 ∧ (⟨false, true, false, 0#5, 1#32, false⟩ : PinsIn).reqWrite = false ∧
      (⟨false, true, false, 0#5, 2#32, false⟩ : PinsIn) =
        { (⟨false, true, false, 0#5, 1#32, false⟩ : PinsIn) with reqWdata := 2#32 } := by decide

end Sys2Proof.Tests
end

section
/-!
PROOFS. The statements of spec/00_scope.md.
-/

namespace Sys2Proof.Proofs

/-- Settles O48: the constant is `Config.latencyBound + 1`, the greatest value `Config.latency` can take
whatever the free latency is. -/
theorem latencyIsPositiveAndBounded : Obligations.LatencyIsPositiveAndBounded :=
  ⟨Config.latencyBound + 1, fun s r => Machine.latencyOf_bounds s r⟩

end Sys2Proof.Proofs
end

section
/-!
PROOFS. The family of spec/10_state.md: the STATUS word, the reset state, constant destinations, the
invariant of the block, and the cycles of an accepted request.
-/

namespace Sys2Proof.Proofs

open Machine

/-! ### Commands whose destination is a constant register -/

/-- Every command's encoding has the fields of its row (R60, R63). -/
theorem encodedFields : ∀ i : Instr, Laws.EncodedFields.Statement i
  | .add d a b => Laws.EncodedFields.add d a b
  | .sub d a b => Laws.EncodedFields.sub d a b
  | .mul d a b => Laws.EncodedFields.mul d a b
  | .div d a b => Laws.EncodedFields.div d a b
  | .pow d a b => Laws.EncodedFields.pow d a b
  | .sqrt d a => Laws.EncodedFields.sqrt d a
  | .abs d a => Laws.EncodedFields.abs d a
  | .min d a b => Laws.EncodedFields.min d a b
  | .max d a b => Laws.EncodedFields.max d a b
  | .clamp d a b c => Laws.EncodedFields.clamp d a b c
  | .clamp01 d a => Laws.EncodedFields.clamp01 d a
  | .lerp d a b c => Laws.EncodedFields.lerp d a b c
  | .lerpu d a b c => Laws.EncodedFields.lerpu d a b c
  | .cmp a b => Laws.EncodedFields.cmp a b
  | .fromint d a => Laws.EncodedFields.fromint d a

theorem rdField_encode {i : Instr} {rd : Reg} (h : i.dest = some rd) :
    rdField (encode i) = regIndex rd := by
  obtain ⟨-, hrd, -⟩ := encodedFields i
  rw [hrd, h]; rfl

theorem eight_le_regIndex_const (k : ConstReg) : 8 ≤ regIndex (.const k) := by
  cases k <;> decide

theorem rdField_le_of_operands1 {w : Word} {f : Reg → Reg → Instr} {i : Instr}
    (h : operands1 w f = .ok i) : rdField w ≤ 7 := by
  obtain ⟨_, -, -, -, d, ⟨hd, hgen⟩, -⟩ := operands1_eq_ok.1 h
  exact hd ▸ (isGeneral_iff d).1 hgen

theorem rdField_le_of_operands2 {w : Word} {f : Reg → Reg → Reg → Instr} {i : Instr}
    (h : operands2 w f = .ok i) : rdField w ≤ 7 := by
  obtain ⟨_, -, _, -, -, d, ⟨hd, hgen⟩, -⟩ := operands2_eq_ok.1 h
  exact hd ▸ (isGeneral_iff d).1 hgen

theorem rdField_le_of_operands3 {w : Word} {f : Reg → Reg → Reg → Reg → Instr} {i : Instr}
    (h : operands3 w f = .ok i) : rdField w ≤ 7 := by
  obtain ⟨_, -, _, -, _, -, d, ⟨hd, hgen⟩, -⟩ := operands3_eq_ok.1 h
  exact hd ▸ (isGeneral_iff d).1 hgen

theorem rdField_le_of_operandsCmp {w : Word} {i : Instr} (h : operandsCmp w = .ok i) :
    rdField w ≤ 7 := by
  obtain ⟨_, -, _, -, -, hrd, -⟩ := operandsCmp_eq_ok.1 h
  omega

/-- No word with a constant register's index in `rd` decodes, CMP's included: its `rd` is 0
(R65 check 4). -/
theorem rdField_le_of_decode {w : Word} {i : Instr} (h : decode w = .ok i) : rdField w ≤ 7 := by
  unfold decode at h
  split at h
  · cases h
  · split at h
    case h_6 | h_7 | h_11 | h_15 => exact rdField_le_of_operands1 h
    case h_10 | h_12 | h_13 => exact rdField_le_of_operands3 h
    case h_14 => exact rdField_le_of_operandsCmp h
    case h_16 => cases h
    all_goals exact rdField_le_of_operands2 h

theorem rdField_le_of_legalCommand {w : Word} (h : LegalCommand w) : rdField w ≤ 7 := by
  have hd := h.destination
  change w.toNat / 2 ^ 20 % 16 ≤ 7
  split at hd <;> omega

theorem execute_of_not_decoded {w : Word} (s : State) (h : ∀ i, decode w ≠ .ok i) :
    execute w s = .next (s.raise .illegalCommand) := by
  rcases execute_cases s w with ⟨i, hi, -⟩ | ⟨_, -, hx⟩
  · exact absurd hi (h i)
  · exact hx

/-- Settles O7: the encoding's `rd` holds an index of at least 8, which neither R65 nor the decoder
admits. -/
theorem constantDestinationIsIllegal : Obligations.ConstantDestinationIsIllegal := by
  intro i k s hdest
  have hrd : 8 ≤ rdField (encode i) := rdField_encode hdest ▸ eight_le_regIndex_const k
  have hexec : exec i s = .next (s.raise .illegalCommand) := by
    rw [exec_of_dest s hdest, finish_const]
  have hexecute : execute (encode i) s = .next (s.raise .illegalCommand) :=
    execute_of_not_decoded s fun j hj => by have := rdField_le_of_decode hj; omega
  refine ⟨by rw [Instr.wf, hdest]; rfl, fun hl => ?_, _, hexec, hexecute,
    fun _ => rfl, ⟨rfl, rfl⟩, ⟨rfl, rfl, rfl⟩, rfl⟩
  have := rdField_le_of_legalCommand hl
  omega

/-! ### The STATUS word and the reset state -/

/-- The STATUS word as a sum of its fields, each at its place (R26). -/
theorem statusWord_toNat (s : State) :
    s.statusWord.toNat = s.err.code.toNat + 256 * s.flagEq.toNat + 512 * s.flagLt.toNat := by
  have hfields : ∀ (lt eq : Bool) (code : BitVec 3),
      (0#22 ++ BitVec.ofBool lt ++ BitVec.ofBool eq ++ 0#5 ++ code).toNat =
        code.toNat + 256 * eq.toNat + 512 * lt.toNat := by decide
  exact hfields s.flagLt s.flagEq s.err.code

/-- Settles O35: the sum of the three fields, for each error code. -/
theorem statusWordLayout : Obligations.StatusWordLayout := by
  intro s
  have hflag (v : Nat) (b : Bool) : v * b.toNat = if b then v else 0 := by cases b <;> simp
  rw [statusWord_toNat, hflag, hflag]
  cases s.err with
  | ok => rfl
  | raised e => cases e <;> rfl

/-- Settles O43: the flags and ERR are 0 in the reset state, and a constant reads as itself in every
state. -/
theorem resetStateIsAsTheSpecGivesIt : Obligations.ResetStateIsAsTheSpecGivesIt :=
  ⟨BitVec.eq_of_toNat_eq (statusWord_toNat State.reset), rfl, word_const _ .zero, word_const _ .one,
    word_const _ .minusOne, word_const _ .max, word_const _ .min⟩

/-! ### The invariant of the block -/

theorem flagsExclusive_of_sameFlags {s t : State} (h : FlagsExclusive s) (hst : SameFlags s t) :
    FlagsExclusive t := by
  obtain ⟨hEq, hLt⟩ := hst
  rw [FlagsExclusive, hEq, hLt]; exact h

/-- A comparison never sets both flags: what is equal is not less (R112). -/
theorem flagsExclusive_setFlags (s : State) (a b : Int) : FlagsExclusive (s.setFlags a b) := by
  simp only [FlagsExclusive, setFlags_flagEq, setFlags_flagLt, decide_eq_true_eq]
  omega

theorem flagsExclusive_resetBlock (s : State) : FlagsExclusive s.resetBlock := by
  simp [FlagsExclusive]

theorem exec_keeps_flagsExclusive {i : Instr} {s t : State} (h : FlagsExclusive s)
    (ht : exec i s = .next t) : FlagsExclusive t := by
  obtain ⟨u, hu, hc⟩ := exec_cases s i
  obtain rfl : u = t := by simpa [hu] using ht
  rcases hc with ⟨e, rfl⟩ | ⟨n, v, -, rfl⟩ | ⟨a, b, -, rfl⟩
  · exact flagsExclusive_of_sameFlags h ⟨rfl, rfl⟩
  · exact flagsExclusive_of_sameFlags h ⟨rfl, rfl⟩
  · exact flagsExclusive_setFlags s _ _

theorem execute_keeps_flagsExclusive {w : Word} {s t : State} (h : FlagsExclusive s)
    (ht : execute w s = .next t) : FlagsExclusive t := by
  rcases execute_cases s w with ⟨i, -, hx⟩ | ⟨_, -, hx⟩
  · exact exec_keeps_flagsExclusive h (hx ▸ ht)
  · obtain rfl : s.raise .illegalCommand = t := by simpa [hx] using ht
    exact flagsExclusive_of_sameFlags h ⟨rfl, rfl⟩

/-- With no response offered, the invariant speaks of the flags only. -/
theorem inv_of_not_responding {s : State} (hf : FlagsExclusive s)
    (hp : ∀ r, s.port ≠ .responding r) : Inv s :=
  ⟨hf, fun r hr => absurd hr (hp r)⟩

/-- Offering a response that agrees with STATUS.ERR establishes the invariant, whatever the port was
doing. -/
theorem inv_respond {s : State} {p : Response} (hf : FlagsExclusive s)
    (hdata : p.status ≠ .done .ok → p.rdata = 0#32)
    (herr : ∀ e, p.status = .done (.raised e) → s.err = .raised e) : Inv (s.respond p) := by
  refine ⟨flagsExclusive_of_sameFlags hf ⟨rfl, rfl⟩, fun r hr => ?_⟩
  obtain rfl : p = r := by simpa using hr
  exact ⟨hdata, herr⟩

/-- A rejection answers data 0 and is no command error (R45, R53). -/
theorem inv_respond_rejected {s : State} (hf : FlagsExclusive s) : Inv (s.respond rejected) :=
  inv_respond hf (fun _ => rfl) fun _ h => nomatch h

theorem inv_respond_ok {s : State} {p : Response} (hf : FlagsExclusive s)
    (hp : p.status = .done .ok) : Inv (s.respond p) :=
  inv_respond hf (absurd hp) fun e he => by simp [hp] at he

/-- A read is rejected or answers OK (R45, R46). -/
theorem readPort_cases (s : State) (a : BitVec 5) :
    s.readPort a = rejected ∨ (s.readPort a).status = .done .ok := by
  unfold State.readPort
  split
  · exact .inr rfl
  · exact .inr rfl
  · exact .inl rfl
  · exact .inl rfl

/-- A transaction establishes the invariant from exclusive flags alone: the response it offers is made
from the STATUS.ERR it leaves (R27, R53). -/
theorem transact_establishes_inv {r : Request} {s t : State} (h : FlagsExclusive s)
    (ht : transact r s = .next t) : Inv t := by
  obtain ⟨u, p, hu, hc⟩ := transact_cases s r
  obtain rfl : u.respond p = t := by simpa [hu] using ht
  rcases hc with ⟨n, w, rfl, rfl⟩ | ⟨rfl, rfl⟩ | ⟨rfl, rfl⟩ | ⟨hx, rfl⟩
  · exact inv_respond_ok (flagsExclusive_of_sameFlags h ⟨rfl, rfl⟩) rfl
  · exact inv_respond_rejected h
  · rcases readPort_cases u r.addr with hrej | hok
    · exact hrej ▸ inv_respond_rejected h
    · exact inv_respond_ok h hok
  · exact inv_respond (execute_keeps_flagsExclusive h hx) (fun _ => rfl) fun e he => by simpa using he

/-- Settles O45: the flags are 0 and no response is offered. -/
theorem resetMeetsTheInvariant : Obligations.ResetMeetsTheInvariant :=
  inv_of_not_responding (fun h => nomatch h.1) fun _ h => nomatch h

/-- Settles O46, by what a step can do: a transaction establishes the invariant, and a reset or the taking
of a response leaves no response offered. -/
theorem stepKeepsTheInvariant : Obligations.StepKeepsTheInvariant := by
  intro s t hinv ht
  rcases step_cases s with ⟨r, h, hs⟩ | ⟨h, hs⟩ | ⟨h, hs⟩ | hs <;> rw [hs] at ht
  · exact transact_establishes_inv (s := s.setHost h)
      (flagsExclusive_of_sameFlags hinv.flags ⟨rfl, rfl⟩) ht
  · cases ht
    exact inv_of_not_responding (flagsExclusive_resetBlock s) (by simp)
  · cases ht
    exact inv_of_not_responding (flagsExclusive_of_sameFlags hinv.flags ⟨rfl, rfl⟩) (by simp)
  · cases ht
    exact hinv

/-! ### Clock cycles -/

theorem setPort_of_port_eq {s : State} {p : PortPhase} (h : s.port = p) : s.setPort p = s := by
  subst h; rfl

@[simp] theorem setPort_setPort (s : State) (p q : PortPhase) :
    (s.setPort p).setPort q = s.setPort q := rfl

theorem passCycle_last (r : Request) {left : Nat} (s : State) (h : left ≤ 1) :
    passCycle r left s = transact r s := if_pos h

theorem passCycle_waits (r : Request) {left : Nat} (s : State) (h : 1 < left) :
    passCycle r left s = .next (s.setPort (.busy r (left - 1))) := if_neg (by omega)

/-- What remains of a transaction does not depend on the phase the port is in. -/
theorem passCycle_setPort (r : Request) (left : Nat) (s : State) (p : PortPhase) :
    passCycle r left (s.setPort p) = passCycle r left s := by
  unfold passCycle
  rw [transact_setPort, setPort_setPort]

theorem cycle_rst {s : State} {i : PinsIn} (h : i.rst = true) : cycle s i = .next s.resetBlock := by
  simp [cycle, h]

theorem cycle_accept {s : State} {i : PinsIn} (hp : s.port = .idle 0) (hr : i.rst = false)
    (hv : i.reqValid = true) : cycle s i = passCycle i.request (s.latencyOf i.request) s := by
  simp [cycle, hp, hr, hv]

theorem cycle_busy {s : State} {i : PinsIn} {r : Request} {left : Nat} (hp : s.port = .busy r left)
    (hr : i.rst = false) : cycle s i = passCycle r left s := by
  simp [cycle, hp, hr]

/-- A cycle without reset, by the port's phase: nothing moves, a wait gets shorter, a response is taken, or
one of the cycles of a transaction passes, the one in progress or the one accepted now. -/
theorem cycle_cases_of_not_rst (s : State) {i : PinsIn} (hr : i.rst = false) :
    cycle s i = .next s ∨
      (∃ k, cycle s i = .next (s.setPort (.idle k))) ∨
      (∃ p, cycle s i = .next (s.taken p)) ∨
      ∃ r left, cycle s i = passCycle r left s ∧ (s.port = .busy r left ∨ left = s.latencyOf r) := by
  cases hp : s.port with
  | idle wait =>
    cases wait with
    | zero =>
      cases hv : i.reqValid with
      | false => exact .inl (by simp [cycle, hr, hp, hv])
      | true => exact .inr (.inr (.inr ⟨_, _, cycle_accept hp hr hv, .inr rfl⟩))
    | succ k => exact .inr (.inl ⟨k, by simp [cycle, hr, hp]⟩)
  | busy r left => exact .inr (.inr (.inr ⟨r, left, cycle_busy hp hr, .inl rfl⟩))
  | responding p =>
    cases hy : i.rspReady with
    | false => exact .inl (by simp [cycle, hr, hp, hy])
    | true => exact .inr (.inr (.inl ⟨p, by simp [cycle, hr, hp, hy]⟩))

theorem busyWithinBound_of_not_busy {s : State} (hp : ∀ r left, s.port ≠ .busy r left) :
    BusyWithinBound s :=
  fun r left h => absurd h (hp r left)

theorem inv_and_bound_of_idle {s : State} {k : Nat} (hf : FlagsExclusive s) (hp : s.port = .idle k) :
    Inv s ∧ BusyWithinBound s :=
  ⟨inv_of_not_responding hf (by simp [hp]), busyWithinBound_of_not_busy (by simp [hp])⟩

/-- One cycle of a transaction that has at most one more than the bound left keeps the invariant and
brings what is left within the bound. -/
theorem passCycle_keeps_inv_and_bound {r : Request} {left : Nat} {s t : State} (hf : FlagsExclusive s)
    (hleft : left ≤ Config.latencyBound + 1) (ht : passCycle r left s = .next t) :
    Inv t ∧ BusyWithinBound t := by
  by_cases hlast : left ≤ 1
  · rw [passCycle_last r s hlast] at ht
    obtain ⟨u, p, hu, -⟩ := transact_cases s r
    obtain rfl : u.respond p = t := by simpa [hu] using ht
    exact ⟨transact_establishes_inv hf hu, busyWithinBound_of_not_busy (by simp)⟩
  · rw [passCycle_waits r s (by omega)] at ht
    cases ht
    refine ⟨inv_of_not_responding (flagsExclusive_of_sameFlags hf ⟨rfl, rfl⟩) (by simp),
      fun q m hm => ?_⟩
    obtain ⟨-, rfl⟩ : r = q ∧ left - 1 = m := by simpa using hm
    omega

/-- Settles O47, by what a cycle can do. -/
theorem cyclesKeepTheInvariant : Obligations.CyclesKeepTheInvariant := by
  intro s i hinv hbusy
  obtain ⟨t, ht⟩ := cycle_next s i
  refine ⟨t, ht, ?_⟩
  cases hr : i.rst with
  | true =>
    rw [cycle_rst hr] at ht
    cases ht
    exact inv_and_bound_of_idle (flagsExclusive_resetBlock s) (resetBlock_port s)
  | false =>
    rcases cycle_cases_of_not_rst s hr with hs | ⟨k, hs⟩ | ⟨p, hs⟩ | ⟨r, left, hs, hleft⟩ <;>
      rw [hs] at ht
    · cases ht
      exact ⟨hinv, hbusy⟩
    · cases ht
      exact inv_and_bound_of_idle (flagsExclusive_of_sameFlags hinv.flags ⟨rfl, rfl⟩)
        (setPort_port ..)
    · cases ht
      exact inv_and_bound_of_idle (flagsExclusive_of_sameFlags hinv.flags ⟨rfl, rfl⟩)
        (taken_port ..)
    · refine passCycle_keeps_inv_and_bound hinv.flags ?_ ht
      rcases hleft with hport | rfl
      · exact (hbusy r left hport).trans (Nat.le_succ _)
      · exact (latencyOf_bounds s r).2

/-! ### From the acceptance of a request to its response -/

theorem cycles_cons {s t : State} {i : PinsIn} (ins : List PinsIn) (h : cycle s i = .next t) :
    cycles s (i :: ins) = cycles t ins := by
  rw [cycles, h]

theorem cycles_singleton (s : State) (i : PinsIn) : cycles s [i] = cycle s i := by
  obtain ⟨t, ht⟩ := cycle_next s i
  rw [cycles_cons [] ht, ht]; rfl

/-- While a transaction has more cycles left than pass, only the count changes. -/
theorem cycles_busy_waits {r : Request} {ins : List PinsIn} :
    ∀ {s : State} {left : Nat}, s.port = .busy r left → (∀ j ∈ ins, j.rst = false) →
      ins.length < left → cycles s ins = .next (s.setPort (.busy r (left - ins.length))) := by
  induction ins with
  | nil => intro s left hp _ _; exact congrArg _ (setPort_of_port_eq hp).symm
  | cons j rest ih =>
    intro s left hp hrst hlen
    rw [List.length_cons] at hlen
    have hcycle : cycle s j = .next (s.setPort (.busy r (left - 1))) := by
      rw [cycle_busy hp (hrst j List.mem_cons_self), passCycle_waits r s (by omega)]
    rw [cycles_cons rest hcycle, ih (setPort_port ..) (fun k hk => hrst k (List.mem_cons_of_mem j hk))
      (by omega), setPort_setPort, List.length_cons, Nat.sub_sub, Nat.add_comm 1]

/-- When all the cycles that a transaction has left have passed, they have done the transaction. -/
theorem cycles_busy_ends {r : Request} {ins : List PinsIn} {s : State} {left : Nat}
    (hp : s.port = .busy r left) (hrst : ∀ j ∈ ins, j.rst = false) (hpos : 1 ≤ left)
    (hlen : ins.length = left) : cycles s ins = transact r s := by
  induction ins generalizing s left with
  | nil => rw [List.length_nil] at hlen; omega
  | cons j rest ih =>
    have hcycle := cycle_busy hp (hrst j List.mem_cons_self)
    rw [List.length_cons] at hlen
    by_cases hrest : rest = []
    · subst hrest
      rw [cycles_singleton, hcycle, passCycle_last r s (by simpa using hlen.ge)]
    · have := List.length_pos_iff.2 hrest
      rw [passCycle_waits r s (by omega)] at hcycle
      rw [cycles_cons rest hcycle, ih (setPort_port ..) (fun k hk => hrst k (List.mem_cons_of_mem j hk))
        (by omega) (by omega), transact_setPort]

section Accepted
variable {s : State} {i : PinsIn} (hp : s.port = .idle 0) (hr : i.rst = false)
  (hv : i.reqValid = true)
include hp hr hv

/-- Accepting a request is the first of its cycles: an idle port that is offered one does what a port with
the whole latency still to go does. -/
theorem cycles_accept (later : List PinsIn) :
    cycles s (i :: later) =
      cycles (s.setPort (.busy i.request (s.latencyOf i.request))) (i :: later) := by
  rw [cycles, cycles, cycle_accept hp hr hv, cycle_busy (setPort_port ..) hr, passCycle_setPort]

theorem cycles_accept_waits {later : List PinsIn} (hrst : ∀ j ∈ later, j.rst = false)
    (hlen : later.length + 1 < s.latencyOf i.request) :
    cycles s (i :: later) =
      .next (s.setPort (.busy i.request (s.latencyOf i.request - (later.length + 1)))) := by
  rw [cycles_accept hp hr hv, cycles_busy_waits (setPort_port ..) (by simpa [hr] using hrst) hlen,
    setPort_setPort, List.length_cons]

theorem cycles_accept_ends {later : List PinsIn} (hrst : ∀ j ∈ later, j.rst = false)
    (hlen : later.length + 1 = s.latencyOf i.request) :
    cycles s (i :: later) = transact i.request s := by
  rw [cycles_accept hp hr hv, cycles_busy_ends (ins := i :: later) (setPort_port ..)
    (by simpa [hr] using hrst) (latencyOf_bounds s _).1 hlen, transact_setPort]

end Accepted

/-- A request that the host offers to an idle port is performed whole (R29, R47). -/
theorem step_request {s : State} {k : Nat} {r : Request} {rest : List HostEvent}
    (hp : s.port = .idle k) (hh : s.host = .request r :: rest) :
    step s = transact r (s.setHost rest) := by
  simp [step, advance, hostEvent, hp, hh]

/-- Settles O49, by whether the cycles use up the latency. -/
theorem acceptedRequestIsAnsweredAfterItsLatency :
    Obligations.AcceptedRequestIsAnsweredAfterItsLatency := by
  intro s i later hp hr hv hrst hle
  rcases hle.eq_or_lt with heq | hlt
  · exact .inl ⟨heq, cycles_accept_ends hp hr hv hrst heq⟩
  · exact .inr ⟨hlt, _, cycles_accept_waits hp hr hv hrst hlt, rfl, fun _ => rfl, ⟨rfl, rfl⟩, rfl⟩

/-- Settles O50: both the cycles and the step do the one transaction. -/
theorem cyclesRefineTheStep : Obligations.CyclesRefineTheStep := by
  intro s t i later hp hr hv hrst hlen hcycles
  rw [cycles_accept_ends hp hr hv hrst hlen] at hcycles
  exact (step_request (s := { s with host := .request i.request :: s.host }) hp rfl).trans hcycles

end Sys2Proof.Proofs
end

section
/-!
PROOFS. The family of spec/20_memory.md: the port's address map, what a step does with a request, the
response pins, and the ignored data of a read.
-/

namespace Sys2Proof.Proofs

open Machine

/-! ### A decoded word is a legal command -/

/-- The opcode is the top byte of the word, so nothing stands above it (R60). -/
theorem opcodeField_eq_div (w : Word) : opcodeField w = w.toNat / 2 ^ 24 :=
  Nat.mod_eq_of_lt (by have := w.isLt; omega)

/-- Rule R65's checks, in the decoder's names for the bit fields. -/
theorem legalCommand_iff_fields {w : Word} : LegalCommand w ↔
    zeroField w = 0 ∧ (0x01 ≤ opcodeField w ∧ opcodeField w ≤ 0x0F) ∧ rs1Field w ≤ 12 ∧
    (if opcodeField w ∈ [0x06, 0x07, 0x0B, 0x0F] then rs2Field w = 0 else rs2Field w ≤ 12) ∧
    (if opcodeField w ∈ [0x0A, 0x0C, 0x0D] then rs3Field w ≤ 12 else rs3Field w = 0) ∧
    (if opcodeField w = 0x0E then rdField w = 0 else rdField w ≤ 7) := by
  have hzero : zeroField w = w.toNat % 2 ^ 8 := congrArg (· % 2 ^ 8) (Nat.div_one _)
  rw [hzero, opcodeField_eq_div]
  exact ⟨fun ⟨h0, hop, h1, h2, h3, hd⟩ => ⟨h0, hop, h1, h2, h3, hd⟩,
    fun ⟨h0, hop, h1, h2, h3, hd⟩ => ⟨h0, hop, h1, h2, h3, hd⟩⟩

theorem sources_of_operands1 {w : Word} {f : Reg → Reg → Instr} {i : Instr}
    (h : operands1 w f = .ok i) : rs1Field w ≤ 12 ∧ rs2Field w = 0 ∧ rs3Field w = 0 := by
  obtain ⟨a, ha, h2, h3, -⟩ := operands1_eq_ok.1 h
  exact ⟨Nat.le_of_lt_succ (ha ▸ regIndex_lt a), h2, h3⟩

theorem sources_of_operands2 {w : Word} {f : Reg → Reg → Reg → Instr} {i : Instr}
    (h : operands2 w f = .ok i) : rs1Field w ≤ 12 ∧ rs2Field w ≤ 12 ∧ rs3Field w = 0 := by
  obtain ⟨a, ha, b, hb, h3, -⟩ := operands2_eq_ok.1 h
  exact ⟨Nat.le_of_lt_succ (ha ▸ regIndex_lt a), Nat.le_of_lt_succ (hb ▸ regIndex_lt b), h3⟩

theorem sources_of_operands3 {w : Word} {f : Reg → Reg → Reg → Reg → Instr} {i : Instr}
    (h : operands3 w f = .ok i) : rs1Field w ≤ 12 ∧ rs2Field w ≤ 12 ∧ rs3Field w ≤ 12 := by
  obtain ⟨a, ha, b, hb, c, hc, -⟩ := operands3_eq_ok.1 h
  exact ⟨Nat.le_of_lt_succ (ha ▸ regIndex_lt a), Nat.le_of_lt_succ (hb ▸ regIndex_lt b),
    Nat.le_of_lt_succ (hc ▸ regIndex_lt c)⟩

theorem fields_of_operandsCmp {w : Word} {i : Instr} (h : operandsCmp w = .ok i) :
    rs1Field w ≤ 12 ∧ rs2Field w ≤ 12 ∧ rs3Field w = 0 ∧ rdField w = 0 := by
  obtain ⟨a, ha, b, hb, h3, hd, -⟩ := operandsCmp_eq_ok.1 h
  exact ⟨Nat.le_of_lt_succ (ha ▸ regIndex_lt a), Nat.le_of_lt_succ (hb ▸ regIndex_lt b), h3, hd⟩

/-- What the decoder accepts passes every check of rule R65: arm by arm, by the number of sources. -/
theorem legalCommand_of_decode {w : Word} {i : Instr} (h : decode w = .ok i) : LegalCommand w := by
  have hrd := rdField_le_of_decode h
  rw [legalCommand_iff_fields]
  unfold decode at h
  split at h
  case isTrue => cases h
  case isFalse hz =>
    have hzero : zeroField w = 0 := not_not.1 hz
    split at h
    case h_6 hop | h_7 hop | h_11 hop | h_15 hop =>
      simpa [hop, hzero, hrd] using sources_of_operands1 h
    case h_10 hop | h_12 hop | h_13 hop => simpa [hop, hzero, hrd] using sources_of_operands3 h
    case h_14 hop => simpa [hop, hzero] using fields_of_operandsCmp h
    case h_16 => cases h
    case h_1 hop | h_2 hop | h_3 hop | h_4 hop | h_5 hop | h_8 hop | h_9 hop =>
      simpa [hop, hzero, hrd] using sources_of_operands2 h

/-! ### The port's address map -/

theorem location_of_regIndex {a : BitVec 5} {r : Reg} (h : a.toNat = regIndex r) :
    location a = .reg r := by
  simp [location, h]

/-- Whether the port map allows an access, a write if `write` is true, to a location (R45). -/
def allows (write : Bool) : Location → Bool
  | .reg (.gen _) => true
  | .reg (.const _) => !write
  | .cmd => write
  | .status => !write
  | .reserved => false

/-- Where the map allows no access, read off the word index (R41, R45). -/
theorem allows_location_eq_false_iff (write : Bool) (a : BitVec 5) :
    allows write (location a) = false ↔
      write = true ∧ 8 ≤ a.toNat ∧ a.toNat ≠ 0x10 ∨
        write = false ∧ 13 ≤ a.toNat ∧ a.toNat ≠ 0x11 := by
  rcases location_cases a with ⟨r, hl, ha⟩ | ⟨hl, rfl⟩ | ⟨hl, rfl⟩ | ⟨hl, h13, hcmd, hstatus⟩ <;> rw [hl]
  · rw [ha]
    cases r with
    | gen n => simp [allows, regIndex]; omega
    | const k =>
      have h8 := eight_le_regIndex_const k
      have h13 := regIndex_lt (.const k)
      cases write <;> simp [allows] <;> omega
  · simp [allows]
  · simp [allows]
  · have h16 : a.toNat ≠ 0x10 := fun h => hcmd (BitVec.eq_of_toNat_eq h)
    have h17 : a.toNat ≠ 0x11 := fun h => hstatus (BitVec.eq_of_toNat_eq h)
    cases write <;> simp [allows] <;> omega

/-! ### What a transaction does, by its location -/

theorem readPort_of_reg {a : BitVec 5} {r : Reg} (s : State) (h : location a = .reg r) :
    s.readPort a = ⟨s.word r, .done .ok⟩ := by
  rw [State.readPort, h]

theorem readPort_of_status {a : BitVec 5} (s : State) (h : location a = .status) :
    s.readPort a = ⟨s.statusWord, .done .ok⟩ := by
  rw [State.readPort, h]

theorem transact_of_read (s : State) (a : BitVec 5) (d : Word) :
    transact ⟨false, a, d⟩ s = .next (s.respond (s.readPort a)) := rfl

theorem transact_of_write_gen {a : BitVec 5} {n : Fin 8} (s : State) (d : Word)
    (h : location a = .reg (.gen n)) :
    transact ⟨true, a, d⟩ s = .next ((s.setGen n d).respond ⟨0#32, .done .ok⟩) := by
  simp [transact, h]

theorem transact_of_write_cmd {a : BitVec 5} {w : Word} {s t : State} (h : location a = .cmd)
    (ht : execute w s = .next t) : transact ⟨true, a, w⟩ s = .next t.answerCommand := by
  simp [transact, h, ht]

theorem transact_of_not_allowed {r : Request} (s : State)
    (h : allows r.write (location r.addr) = false) : transact r s = .next (s.respond rejected) := by
  obtain ⟨write, a, d⟩ := r
  dsimp only at h
  cases write with
  | false =>
    rw [transact_of_read, State.readPort]
    split
    case h_1 r hl => cases r <;> simp [hl, allows] at h
    case h_2 hl => simp [hl, allows] at h
    all_goals rfl
  | true =>
    rw [transact, if_pos rfl]
    split
    case h_1 hl | h_2 hl => simp [hl, allows] at h
    all_goals rfl

theorem transact_of_allowed {r : Request} (s : State) (h : allows r.write (location r.addr) = true) :
    ∃ (t : State) (p : Response), transact r s = .next (t.respond p) ∧ p.status ≠ .illegalAccess := by
  obtain ⟨write, a, d⟩ := r
  dsimp only at h
  cases write with
  | false =>
    refine ⟨s, _, transact_of_read s a d, ?_⟩
    cases hl : location a with
    | reg r => rw [readPort_of_reg s hl]; nofun
    | status => rw [readPort_of_status s hl]; nofun
    | cmd | reserved => simp [hl, allows] at h
  | true =>
    cases hl : location a with
    | reg r =>
      cases r with
      | gen n => exact ⟨_, _, transact_of_write_gen s d hl, by simp⟩
      | const k => simp [hl, allows] at h
    | cmd =>
      obtain ⟨t, ht, -⟩ := execute_next s d
      exact ⟨t, _, transact_of_write_cmd hl ht, by simp⟩
    | status | reserved => simp [hl, allows] at h

/-! ### What a step does with the host's next event -/

theorem step_busy {s : State} {r : Request} {left : Nat} (hp : s.port = .busy r left) :
    step s = transact r s := by
  simp [step, advance, hp]

theorem step_held {s : State} {p : Response} {r : Request} {rest : List HostEvent}
    (hp : s.port = .responding p) (hh : s.host = .request r :: rest) : step s = .next s := by
  simp [step, advance, hostEvent, hp, hh]

theorem step_takeResponse {s : State} {p : Response} {rest : List HostEvent}
    (hp : s.port = .responding p) (hh : s.host = .takeResponse :: rest) :
    step s = .next ((s.setPort (.idle 0)).setHost rest) := by
  simp [step, advance, hostEvent, hp, hh]

theorem execute_of_decode {w : Word} {i : Instr} (s : State) (h : decode w = .ok i) :
    execute w s = exec i s := by
  rw [execute, h]

theorem transact_commandRequest {w : Word} {s t : State} (ht : execute w s = .next t) :
    transact (commandRequest w) s = .next t.answerCommand :=
  transact_of_write_cmd rfl ht

theorem step_withFetchWord (s : State) (w : Word) :
    step (s.withFetchWord 32 w.toNat) = transact (commandRequest w) (s.setPort (.idle 0)) := by
  have hw : BitVec.ofNat 32 (w.toNat % 2 ^ 32) = w := by
    rw [Nat.mod_eq_of_lt w.isLt, BitVec.ofNat_toNat, BitVec.setWidth_eq]
  rw [State.withFetchWord, hw, step_request rfl rfl]
  rfl

/-- Settles O36: in each of the three placings the step is the transaction of the CMD write. -/
theorem stepRunsTheDecodedCommand : Obligations.StepRunsTheDecodedCommand := by
  intro w i s t hw
  refine ⟨fun k rest hp hh ht => ?_, fun left hp ht => ?_, fun ht => ?_⟩
  · rw [step_request hp hh]
    exact transact_commandRequest ((execute_of_decode _ hw).trans ht)
  · rw [step_busy hp]
    exact transact_commandRequest ((execute_of_decode _ hw).trans ht)
  · rw [step_withFetchWord]
    exact transact_commandRequest ((execute_of_decode _ hw).trans ht)

/-- Settles O37: what the decoder accepts is legal, so the illegal word is executed as IllegalCommand. -/
theorem stepOnIllegalWordRaises : Obligations.StepOnIllegalWordRaises := by
  intro w s k rest hw hp hh
  rw [step_request hp hh]
  exact transact_commandRequest (execute_of_not_decoded _ fun i hi => hw (legalCommand_of_decode hi))

/-- Settles O38, by the location of the word index. -/
theorem readsAnswerAndChangeNothing : Obligations.ReadsAnswerAndChangeNothing := by
  intro s k rest addr d hp hh
  rw [step_request hp hh, transact_of_read]
  refine ⟨fun r hr => ?_, fun hstatus => ?_⟩
  · rw [readPort_of_reg _ (location_of_regIndex hr)]; rfl
  · rw [readPort_of_status _ (hstatus ▸ rfl)]; rfl

/-- Settles O39: the step is the old state with one general register written. -/
theorem registerWritesStoreVerbatim : Obligations.RegisterWritesStoreVerbatim := by
  intro s k rest n addr d hp ha hh
  have hl : location addr = .reg (.gen n) := location_of_regIndex ha
  exact ⟨_, (step_request hp hh).trans (transact_of_write_gen _ d hl), word_setGen_same s n d,
    word_setGen_other s n d, ⟨rfl, rfl⟩, rfl, rfl, rfl, rfl⟩

/-- Settles O40, by whether the map allows the access. -/
theorem rejectedAccessChangesNothing : Obligations.RejectedAccessChangesNothing := by
  intro s k rest r hp hh
  rw [step_request hp hh, ← allows_location_eq_false_iff]
  cases h : allows r.write (location r.addr) with
  | false => exact ⟨_, _, transact_of_not_allowed _ h, rfl, iff_of_true rfl rfl, fun _ => rfl⟩
  | true =>
    obtain ⟨t, p, ht, hstatus⟩ := transact_of_allowed (s.setHost rest) h
    exact ⟨_, p, ht, rfl, iff_of_false hstatus nofun, fun hp => absurd hp hstatus⟩

/-- Settles O41: a request offered to a port with a response is held, and the taking frees the port. -/
theorem oneTransactionOutstanding : Obligations.OneTransactionOutstanding :=
  fun _ _ _ hp => ⟨fun _ hh => step_held hp hh, fun hh => step_takeResponse hp hh⟩

/-! ### The output pins and the taking of a response -/

theorem pinsOut_congr {s t : State} {i j : PinsIn} (hp : s.port = t.port) (hr : i.rst = j.rst) :
    s.pinsOut i = t.pinsOut j := by
  rw [State.pinsOut, State.pinsOut, hp, hr]

theorem pinsOut_rsp_eq_some_iff {s : State} {i : PinsIn} {p : Response} :
    (s.pinsOut i).rsp = some p ↔ i.rst = false ∧ s.port = .responding p := by
  unfold State.pinsOut
  cases i.rst with
  | true => simp
  | false => rcases s.port with (_ | _) | _ | _ <;> simp

/-- No request is accepted unless the port is idle, whatever the response pins do (R47). -/
theorem pinsOut_reqReady_of_outstanding {s : State} (i : PinsIn) (h : ∀ k, s.port ≠ .idle k) :
    (s.pinsOut i).reqReady = false := by
  unfold State.pinsOut
  cases i.rst with
  | true => rfl
  | false =>
    cases hp : s.port with
    | idle k => exact absurd hp (h k)
    | busy | responding => rfl

theorem pinsOut_rsp_of_idle {s : State} {k : Nat} (i : PinsIn) (hp : s.port = .idle k) :
    (s.pinsOut i).rsp = none :=
  Option.eq_none_iff_forall_ne_some.2 fun p h => by
    have := (pinsOut_rsp_eq_some_iff.1 h).2
    simp [hp] at this

theorem cycle_responding {s : State} {i : PinsIn} {p : Response} (hp : s.port = .responding p)
    (hr : i.rst = false) : cycle s i = .next (if i.rspReady then s.taken p else s) := by
  cases hy : i.rspReady <;> simp [cycle, hp, hr, hy]

theorem cycles_responding_not_taken {s : State} {p : Response} {ins : List PinsIn}
    (hp : s.port = .responding p) (h : ∀ j ∈ ins, j.rst = false ∧ j.rspReady = false) :
    cycles s ins = .next s := by
  induction ins with
  | nil => rfl
  | cons j rest ih =>
    obtain ⟨hr, hready⟩ := h j List.mem_cons_self
    have hcycle : cycle s j = .next s := by simp [cycle_responding hp hr, hready]
    rw [cycles_cons rest hcycle, ih fun k hk => h k (List.mem_cons_of_mem j hk)]

/-- Settles O56: while it is not taken the state stays the same, by induction on the cycles; the one that
takes it leaves the port idle, where the pins carry no response. -/
theorem offeredResponseStaysUntilTaken : Obligations.OfferedResponseStaysUntilTaken := by
  intro s p
  refine ⟨fun i => pinsOut_rsp_eq_some_iff, fun hp => ⟨fun i => ?_, fun ins hins => ?_,
    fun i hr hready => ⟨s.taken p, _, ?_, taken_port s p, ⟨fun _ => rfl, ⟨rfl, rfl⟩, rfl⟩, fun j => ?_⟩⟩⟩
  · exact pinsOut_reqReady_of_outstanding i (by simp [hp])
  · exact cycles_responding_not_taken hp hins
  · rw [cycle_responding hp hr, if_pos hready]
  · exact pinsOut_rsp_of_idle j (taken_port s p)

/-- Settles O51, by what is outstanding: a transaction in progress, or a response to be taken. -/
theorem requestPinsIgnoredWhileOutstanding : Obligations.RequestPinsIgnoredWhileOutstanding := by
  intro s i j hout hrst hready
  refine ⟨?_, pinsOut_congr rfl hrst, pinsOut_reqReady_of_outstanding i hout⟩
  cases hr : i.rst with
  | true => rw [cycle_rst hr, cycle_rst (hrst ▸ hr)]
  | false =>
    have hr' : j.rst = false := hrst ▸ hr
    cases hp : s.port with
    | idle k => exact absurd hp (hout k)
    | busy r left => rw [cycle_busy hp hr, cycle_busy hp hr']
    | responding p => rw [cycle_responding hp hr, cycle_responding hp hr', hready]

/-! ### Two runs that differ in the ignored data of a read -/

/-- Two states that differ at most in the request in progress, `q` in the one and `r` in the other. -/
def DifferInRequest (q r : Request) (t u : State) : Prop :=
  t = u ∨ ∃ left, t.port = .busy q left ∧ u = t.setPort (.busy r left)

theorem DifferInRequest.sameArchitecture {q r : Request} {t u : State} (h : DifferInRequest q r t u) :
    SameArchitecture t u := by
  rcases h with rfl | ⟨left, -, rfl⟩ <;> exact ⟨fun _ => rfl, ⟨rfl, rfl⟩, rfl⟩

theorem DifferInRequest.pinsOut_eq {q r : Request} {t u : State} (h : DifferInRequest q r t u)
    (k : PinsIn) : t.pinsOut k = u.pinsOut k := by
  rcases h with rfl | ⟨left, hp, rfl⟩
  · rfl
  · simp [State.pinsOut, hp]

section SameEffect
variable {q r : Request} (hqr : ∀ s, transact q s = transact r s)
include hqr

theorem passCycle_differInRequest (left : Nat) (s : State) :
    ∃ t u, passCycle q left s = .next t ∧ passCycle r left s = .next u ∧ DifferInRequest q r t u := by
  by_cases hlast : left ≤ 1
  · obtain ⟨t, p, ht, -⟩ := transact_cases s r
    rw [passCycle_last q s hlast, passCycle_last r s hlast, hqr s]
    exact ⟨_, _, ht, ht, .inl rfl⟩
  · rw [passCycle_waits q s (by omega), passCycle_waits r s (by omega)]
    exact ⟨_, _, rfl, rfl, .inr ⟨_, rfl, rfl⟩⟩

theorem cycle_keeps_differInRequest {t u : State} (h : DifferInRequest q r t u) (k : PinsIn) :
    ∃ t' u', cycle t k = .next t' ∧ cycle u k = .next u' ∧ DifferInRequest q r t' u' := by
  rcases h with rfl | ⟨left, hp, rfl⟩
  · obtain ⟨t', ht⟩ := cycle_next t k
    exact ⟨t', t', ht, ht, .inl rfl⟩
  · cases hr : k.rst with
    | true => exact ⟨_, _, cycle_rst hr, cycle_rst hr, .inl rfl⟩
    | false =>
      rw [cycle_busy hp hr, cycle_busy (setPort_port ..) hr, passCycle_setPort]
      exact passCycle_differInRequest hqr left t

theorem cycles_keep_differInRequest (later : List PinsIn) :
    ∀ {t u : State}, DifferInRequest q r t u →
      ∃ t' u', cycles t later = .next t' ∧ cycles u later = .next u' ∧ DifferInRequest q r t' u' := by
  induction later with
  | nil => exact fun h => ⟨_, _, rfl, rfl, h⟩
  | cons k rest ih =>
    intro t u h
    obtain ⟨t', u', ht, hu, h'⟩ := cycle_keeps_differInRequest hqr h k
    rw [cycles_cons rest ht, cycles_cons rest hu]
    exact ih h'

end SameEffect

/-- What a read does is the same with any data (R47). -/
theorem transact_withData {r : Request} (hw : r.write = false) (d : Word) (s : State) :
    transact r s = transact { r with wdata := d } s := by
  obtain ⟨write, a, e⟩ := r
  obtain rfl : write = false := hw
  exact transact_read s a e d

theorem latencyOf_withData {r : Request} (hw : r.write = false) (d : Word) (s : State) :
    s.latencyOf r = s.latencyOf { r with wdata := d } := by
  obtain ⟨write, a, e⟩ := r
  obtain rfl : write = false := hw
  exact latencyOf_read s a e d

theorem cycle_ready_not_offered {s : State} {i : PinsIn} (hp : s.port = .idle 0)
    (hr : i.rst = false) (hv : i.reqValid = false) : cycle s i = .next s := by
  simp [cycle, hp, hr, hv]

/-- The first cycles of two runs that offer a read of the same location. -/
theorem cycle_read_differInRequest {s : State} {i : PinsIn} (hp : s.port = .idle 0)
    (hw : i.reqWrite = false) (d : Word) :
    ∃ t u, cycle s i = .next t ∧ cycle s { i with reqWdata := d } = .next u ∧
      DifferInRequest i.request { i.request with wdata := d } t u := by
  rcases i.rst.eq_false_or_eq_true with hr | hr
  · exact ⟨_, _, cycle_rst hr, cycle_rst hr, .inl rfl⟩
  · rcases i.reqValid.eq_false_or_eq_true with hv | hv
    · rw [cycle_accept hp hr hv, cycle_accept (i := { i with reqWdata := d }) hp hr hv,
        latencyOf_withData hw d]
      exact passCycle_differInRequest (transact_withData hw d) _ s
    · exact ⟨s, s, cycle_ready_not_offered hp hr hv, cycle_ready_not_offered hp hr hv, .inl rfl⟩

/-- Settles O57: the runs differ in the request in progress at most after the first cycle, and every later
cycle keeps that. -/
theorem readIgnoresItsData : Obligations.ReadIgnoresItsData := by
  intro s i j later hp hw hj
  obtain ⟨d, rfl⟩ : ∃ d, j = { i with reqWdata := d } := ⟨_, hj⟩
  obtain ⟨t₁, u₁, ht₁, hu₁, h₁⟩ := cycle_read_differInRequest hp hw d
  obtain ⟨t, u, ht, hu, h⟩ := cycles_keep_differInRequest (transact_withData hw d) later h₁
  rw [cycles_cons later ht₁, cycles_cons later hu₁]
  exact ⟨pinsOut_congr rfl rfl, t, u, ht, hu, h.sameArchitecture, h.pinsOut_eq, h⟩

end Sys2Proof.Proofs
end

section
/-!
PROOFS. The family of spec/30_encoding.md: the decoder against the encoder, the legality rule and the mask
table, IllegalCommand, NEG and MOV, and what a command leaves unchanged.
-/

namespace Sys2Proof.Proofs

open Machine

/-! ### The decoder and the encoder -/

/-- The six fields cover the word (R60). -/
theorem word_eq_of_fields_eq {v w : Word} (hop : opcodeField v = opcodeField w)
    (hrd : rdField v = rdField w) (h1 : rs1Field v = rs1Field w) (h2 : rs2Field v = rs2Field w)
    (h3 : rs3Field v = rs3Field w) (hz : zeroField v = zeroField w) : v = w := by
  apply BitVec.eq_of_toNat_eq
  have hv := v.isLt
  have hw := w.isLt
  simp only [opcodeField, rdField, rs1Field, rs2Field, rs3Field, zeroField, field] at *
  omega

/-- The fields of a word that spells a command: its opcode, its operands' indices where the row has them,
and 0 in every other field (R60, R63). -/
structure Spells (w : Word) (i : Instr) : Prop where
  op : opcodeField w = opcode i
  rd : rdField w = (i.dest.map regIndex).getD 0
  rs1 : rs1Field w = (i.sources[0]?.map regIndex).getD 0
  rs2 : rs2Field w = (i.sources[1]?.map regIndex).getD 0
  rs3 : rs3Field w = (i.sources[2]?.map regIndex).getD 0
  zero : zeroField w = 0

theorem spells_encode (i : Instr) : Spells (encode i) i :=
  have ⟨hop, hrd, h1, h2, h3, hz⟩ := encodedFields i
  ⟨hop, hrd, h1, h2, h3, hz⟩

theorem Spells.unique {v w : Word} {i : Instr} (hv : Spells v i) (hw : Spells w i) : v = w :=
  word_eq_of_fields_eq (hv.op.trans hw.op.symm) (hv.rd.trans hw.rd.symm)
    (hv.rs1.trans hw.rs1.symm) (hv.rs2.trans hw.rs2.symm) (hv.rs3.trans hw.rs3.symm)
    (hv.zero.trans hw.zero.symm)

/-- What the decoder accepts is well formed and spelled by the word: arm by arm, by the operands' shape. -/
theorem wf_and_spells_of_decode {w : Word} {i : Instr} (h : decode w = .ok i) :
    i.wf = true ∧ Spells w i := by
  unfold decode at h
  split at h
  case isTrue => cases h
  case isFalse hz =>
    have hzero : zeroField w = 0 := not_not.1 hz
    split at h
    case h_6 hop | h_7 hop | h_11 hop | h_15 hop =>
      obtain ⟨a, ha, h2, h3, d, ⟨hd, hgen⟩, rfl⟩ := operands1_eq_ok.1 h
      exact ⟨hgen, hop, hd.symm, ha.symm, h2, h3, hzero⟩
    case h_10 hop | h_12 hop | h_13 hop =>
      obtain ⟨a, ha, b, hb, c, hc, d, ⟨hd, hgen⟩, rfl⟩ := operands3_eq_ok.1 h
      exact ⟨hgen, hop, hd.symm, ha.symm, hb.symm, hc.symm, hzero⟩
    case h_14 hop =>
      obtain ⟨a, ha, b, hb, h3, hd, rfl⟩ := operandsCmp_eq_ok.1 h
      exact ⟨rfl, hop, hd, ha.symm, hb.symm, h3, hzero⟩
    case h_16 => cases h
    case h_1 hop | h_2 hop | h_3 hop | h_4 hop | h_5 hop | h_8 hop | h_9 hop =>
      obtain ⟨a, ha, b, hb, h3, d, ⟨hd, hgen⟩, rfl⟩ := operands2_eq_ok.1 h
      exact ⟨hgen, hop, hd.symm, ha.symm, hb.symm, h3, hzero⟩

/-- A word that spells a well-formed command decodes to it: the opcode selects the arm, whose operand check
the fields pass. -/
theorem decode_of_spells {w : Word} {i : Instr} (hwf : i.wf = true) (h : Spells w i) :
    decode w = .ok i := by
  obtain ⟨hop, hrd, h1, h2, h3, hz⟩ := h
  cases i <;> simp only [decode, hz, hop, opcode, ne_eq, not_true_eq_false, if_false]
  case sqrt d a | abs d a | clamp01 d a | fromint d a =>
    exact operands1_eq_ok.2 ⟨a, h1.symm, h2, h3, d, ⟨hrd.symm, hwf⟩, rfl⟩
  case clamp d a b c | lerp d a b c | lerpu d a b c =>
    exact operands3_eq_ok.2 ⟨a, h1.symm, b, h2.symm, c, h3.symm, d, ⟨hrd.symm, hwf⟩, rfl⟩
  case cmp a b => exact operandsCmp_eq_ok.2 ⟨a, h1.symm, b, h2.symm, h3, hrd, rfl⟩
  case add d a b | sub d a b | mul d a b | div d a b | pow d a b | min d a b | max d a b =>
    exact operands2_eq_ok.2 ⟨a, h1.symm, b, h2.symm, h3, d, ⟨hrd.symm, hwf⟩, rfl⟩

/-- Settles O2: the encoding spells its command, and what spells a well-formed command decodes to it. -/
theorem decodeOfEncodeIsTheCommand : Obligations.DecodeOfEncodeIsTheCommand :=
  fun i hwf => decode_of_spells hwf (spells_encode i)

/-- Settles O3: the word and the encoding both spell the command, and only one word does. -/
theorem decodedWordIsTheEncoding : Obligations.DecodedWordIsTheEncoding := fun _ i h =>
  have ⟨hwf, hw⟩ := wf_and_spells_of_decode h
  ⟨(spells_encode i).unique hw, hwf⟩

/-- Settles O1: each word is the spec's, evaluated. -/
theorem exampleWordsDecode : Obligations.ExampleWordsDecode := by
  unfold Obligations.ExampleWordsDecode
  decide

/-! ### The legal words and the mask table -/

theorem exists_regIndex_eq {n : Nat} (h : n ≤ 12) : ∃ r, regIndex r = n := by
  obtain ⟨r, hr⟩ := Option.isSome_iff_exists.1 (regOfIndex_isSome.2 h)
  exact ⟨r, regIndex_of_regOfIndex hr⟩

theorem exists_general_regIndex_eq {n : Nat} (h : n ≤ 7) :
    ∃ r, regIndex r = n ∧ r.isGeneral = true := by
  obtain ⟨r, rfl⟩ := exists_regIndex_eq (Nat.le_trans h (by decide))
  exact ⟨r, rfl, (isGeneral_iff r).2 h⟩

section Accepts
variable {w : Word} (h1 : rs1Field w ≤ 12)
include h1

theorem operands1_accepts {f : Reg → Reg → Instr} (h2 : rs2Field w = 0) (h3 : rs3Field w = 0)
    (hd : rdField w ≤ 7) : ∃ i, operands1 w f = .ok i := by
  obtain ⟨a, ha⟩ := exists_regIndex_eq h1
  obtain ⟨d, hd⟩ := exists_general_regIndex_eq hd
  exact ⟨f d a, operands1_eq_ok.2 ⟨a, ha, h2, h3, d, hd, rfl⟩⟩

theorem operands2_accepts {f : Reg → Reg → Reg → Instr} (h2 : rs2Field w ≤ 12)
    (h3 : rs3Field w = 0) (hd : rdField w ≤ 7) : ∃ i, operands2 w f = .ok i := by
  obtain ⟨a, ha⟩ := exists_regIndex_eq h1
  obtain ⟨b, hb⟩ := exists_regIndex_eq h2
  obtain ⟨d, hd⟩ := exists_general_regIndex_eq hd
  exact ⟨f d a b, operands2_eq_ok.2 ⟨a, ha, b, hb, h3, d, hd, rfl⟩⟩

theorem operands3_accepts {f : Reg → Reg → Reg → Reg → Instr} (h2 : rs2Field w ≤ 12)
    (h3 : rs3Field w ≤ 12) (hd : rdField w ≤ 7) : ∃ i, operands3 w f = .ok i := by
  obtain ⟨a, ha⟩ := exists_regIndex_eq h1
  obtain ⟨b, hb⟩ := exists_regIndex_eq h2
  obtain ⟨c, hc⟩ := exists_regIndex_eq h3
  obtain ⟨d, hd⟩ := exists_general_regIndex_eq hd
  exact ⟨f d a b c, operands3_eq_ok.2 ⟨a, ha, b, hb, c, hc, d, hd, rfl⟩⟩

theorem operandsCmp_accepts (h2 : rs2Field w ≤ 12) (h3 : rs3Field w = 0) (hd : rdField w = 0) :
    ∃ i, operandsCmp w = .ok i := by
  obtain ⟨a, ha⟩ := exists_regIndex_eq h1
  obtain ⟨b, hb⟩ := exists_regIndex_eq h2
  exact ⟨.cmp a b, operandsCmp_eq_ok.2 ⟨a, ha, b, hb, h3, hd, rfl⟩⟩

end Accepts

/-- A word that passes every check of rule R65 is accepted: at each opcode the checks left are those of the
decoder's arm. -/
theorem decode_accepts_of_legalCommand {w : Word} (h : LegalCommand w) : ∃ i, decode w = .ok i := by
  obtain ⟨hz, hop, h1, h2, h3, hd⟩ := legalCommand_iff_fields.1 h
  unfold decode
  rw [if_neg (not_not.2 hz)]
  split
  case h_6 hop | h_7 hop | h_11 hop | h_15 hop =>
    exact operands1_accepts h1 (by simpa [hop] using h2) (by simpa [hop] using h3)
      (by simpa [hop] using hd)
  case h_10 hop | h_12 hop | h_13 hop =>
    exact operands3_accepts h1 (by simpa [hop] using h2) (by simpa [hop] using h3)
      (by simpa [hop] using hd)
  case h_14 hop =>
    exact operandsCmp_accepts h1 (by simpa [hop] using h2) (by simpa [hop] using h3)
      (by simpa [hop] using hd)
  case h_16 =>
    simp only [imp_false] at *
    omega
  case h_1 hop | h_2 hop | h_3 hop | h_4 hop | h_5 hop | h_8 hop | h_9 hop =>
    exact operands2_accepts h1 (by simpa [hop] using h2) (by simpa [hop] using h3)
      (by simpa [hop] using hd)

/-- Settles O4: the checks of R65 are those of the decoder's arms, in both directions. -/
theorem decoderAcceptsExactlyTheLegalWords : Obligations.DecoderAcceptsExactlyTheLegalWords :=
  fun _ => ⟨fun ⟨_, h⟩ => legalCommand_of_decode h, decode_accepts_of_legalCommand⟩

/-- A field of a masked word is the field masked (R4). -/
theorem field_and (v w : Word) (hi lo : Nat) :
    field (v &&& w) hi lo = field v hi lo &&& field w hi lo := by
  simp only [field, BitVec.toNat_and, Nat.and_div_two_pow, Nat.and_mod_two_pow]

/-- A masked word is a pattern when each field is (R4, R64). -/
theorem and_eq_of_fields {w m p : Word} (hop : opcodeField w &&& opcodeField m = opcodeField p)
    (hrd : rdField w &&& rdField m = rdField p) (h1 : rs1Field w &&& rs1Field m = rs1Field p)
    (h2 : rs2Field w &&& rs2Field m = rs2Field p) (h3 : rs3Field w &&& rs3Field m = rs3Field p)
    (hz : zeroField w &&& zeroField m = zeroField p) : w &&& m = p :=
  word_eq_of_fields_eq ((field_and w m 31 24).trans hop) ((field_and w m 23 20).trans hrd)
    ((field_and w m 19 16).trans h1) ((field_and w m 15 12).trans h2) ((field_and w m 11 8).trans h3)
    ((field_and w m 7 0).trans hz)

/-- A row's mask covers exactly the fields that hold no operand of its command (R64). -/
theorem rowOf_mask_fields (i : Instr) :
    opcodeField (rowOf i).mask = 255 ∧
    rdField (rowOf i).mask = (if i.dest.isSome then 0 else 15) ∧
    rs1Field (rowOf i).mask = 0 ∧
    rs2Field (rowOf i).mask = (if 1 < i.sources.length then 0 else 15) ∧
    rs3Field (rowOf i).mask = (if 2 < i.sources.length then 0 else 15) ∧
    zeroField (rowOf i).mask = 255 := by
  cases i <;> simp [rowOf, Instr.dest, Instr.sources, opcodeField, rdField, rs1Field, rs2Field,
    rs3Field, zeroField, field]

/-- A row's pattern holds the opcode and nothing else (R64). -/
theorem rowOf_pattern (i : Instr) : (rowOf i).pattern = wordOfFields (opcode i) 0 0 0 0 := by
  cases i <;> simp only [rowOf, opcode] <;> decide

/-- Masking an operand that the row has clears its field, and one that it does not have is 0 already. -/
theorem sourceIndex_and_mask (l : List Reg) (k : Nat) :
    (l[k]?.map regIndex).getD 0 &&& (if k < l.length then 0 else 15) = 0 := by
  split
  · exact Nat.and_zero _
  · next h => simp [List.getElem?_eq_none (Nat.le_of_not_lt h)]

theorem destIndex_and_mask (d : Option Reg) :
    (d.map regIndex).getD 0 &&& (if d.isSome then 0 else 15) = 0 := by
  cases d with
  | none => rfl
  | some r => exact Nat.and_zero _

/-- A word that spells a command matches the command's row (R64): the mask keeps the opcode, clears the
operands, and meets 0 in every other field. -/
theorem Spells.and_mask {w : Word} {i : Instr} (h : Spells w i) :
    w &&& (rowOf i).mask = (rowOf i).pattern := by
  obtain ⟨mop, mrd, m1, m2, m3, mz⟩ := rowOf_mask_fields i
  have h0 : 0 < 16 := by decide
  obtain ⟨pop, prd, p1, p2, p3, pz⟩ :=
    Laws.EncodedFields.of_fields (Laws.EncodedFields.opcode_lt i) h0 h0 h0 h0
  rw [rowOf_pattern]
  apply and_eq_of_fields
  · rw [h.op, mop, pop]
    exact Nat.and_two_pow_sub_one_of_lt_two_pow (n := 8) (Laws.EncodedFields.opcode_lt i)
  · rw [h.rd, mrd, prd, destIndex_and_mask]
  · rw [m1, p1, Nat.and_zero]
  · rw [h.rs2, m2, p2, sourceIndex_and_mask]
  · rw [h.rs3, m3, p3, sourceIndex_and_mask]
  · rw [h.zero, pz, Nat.zero_and]

/-- Settles O5: the own row field by field; a match with another row would fix that row's opcode. -/
theorem legalWordSpellsItsRowOnly : Obligations.LegalWordSpellsItsRowOnly := by
  intro w i h
  obtain ⟨-, hw⟩ := wf_and_spells_of_decode h
  refine ⟨hw.and_mask, fun j hji hmatch => hji ?_⟩
  obtain ⟨hmask, hpattern⟩ := rowOf_opcode j
  calc opcode j = opcodeField (rowOf j).pattern := hpattern.symm
    _ = opcodeField w := (opcodeField_of_and hmask hmatch).symm
    _ = opcode i := hw.op

/-! ### IllegalCommand -/

/-- The only error of a division is DivideByZero (R94). -/
theorem error_of_fxDiv {a b : Int} {e : CmdError} (h : fxDiv a b = .error e) : e = .divideByZero := by
  by_cases hb : b = 0
  · rw [hb, fxDiv_zero] at h; cases h; rfl
  · rw [fxDiv_of_ne hb] at h; cases h

/-- The only error of a power is that of its inverting division (R118). -/
theorem error_of_fxPow {base n : Int} {e : CmdError} (h : fxPow base n = .error e) :
    e = .divideByZero := by
  unfold fxPow at h
  split at h
  · exact error_of_fxDiv h
  · cases h

theorem error_of_sqrtLoop {rounds : Nat} {a est : Int} {e : CmdError}
    (h : sqrtLoop rounds a est = .error e) : e = .divideByZero := by
  induction rounds generalizing est with
  | zero => cases h
  | succ rounds ih =>
    rw [sqrtLoop] at h
    split at h
    · next hdiv => cases h; exact error_of_fxDiv hdiv
    · dsimp only at h
      split at h
      · cases h
      · exact ih h

/-- A square root's own error is DomainError, and its rounds divide (R15, R151). -/
theorem error_of_fxSqrt {a : Int} {e : CmdError} (h : fxSqrt a = .error e) :
    e = .domainError ∨ e = .divideByZero := by
  unfold fxSqrt at h
  split at h
  · cases h; exact .inl rfl
  · split at h
    · cases h
    · exact .inr (error_of_sqrtLoop h)

/-- No command's function answers IllegalCommand (R161 to R163). -/
theorem functionOf_ne_illegalCommand (s : State) (i : Instr) :
    functionOf s i ≠ .error .illegalCommand := by
  intro h
  cases i
  case div => cases error_of_fxDiv h
  case pow => cases error_of_fxPow h
  case sqrt => cases error_of_fxSqrt h <;> contradiction
  all_goals cases h

/-- A well-formed command does not end in IllegalCommand: its destination can be written (R163). -/
theorem err_of_exec_wf {i : Instr} {s t : State} (hwf : i.wf = true) (h : exec i s = .next t) :
    t.err ≠ .raised .illegalCommand := by
  cases hd : i.dest with
  | none =>
    obtain ⟨a, b, rfl⟩ := dest_eq_none hd
    cases h
    simp
  | some rd =>
    rw [exec_of_dest s hd] at h
    cases h
    rw [Instr.wf, hd] at hwf
    cases rd with
    | const k => cases hwf
    | gen n =>
      cases hf : functionOf s i with
      | ok v => simp [State.finish]
      | error e =>
        rintro ⟨⟩
        exact functionOf_ne_illegalCommand s i hf

theorem raisesOnly_raise (e : CmdError) (s : State) : RaisesOnly e s (s.raise e) :=
  ⟨fun _ => rfl, ⟨rfl, rfl⟩, ⟨rfl, rfl, rfl⟩, rfl⟩

/-- Settles O6: a legal word runs a well-formed command, and any other word is not decoded. -/
theorem illegalCommandIffWordNotLegal : Obligations.IllegalCommandIffWordNotLegal := by
  intro w s
  by_cases hl : LegalCommand w
  · obtain ⟨i, hi⟩ := decode_accepts_of_legalCommand hl
    obtain ⟨t, ht, -⟩ := exec_cases s i
    have herr := err_of_exec_wf (wf_and_spells_of_decode hi).1 ht
    exact ⟨t, (execute_of_decode s hi).trans ht, by simp [herr, hl], absurd hl⟩
  · refine ⟨_, execute_of_not_decoded s fun i hi => hl (legalCommand_of_decode hi), ?_,
      fun _ => raisesOnly_raise _ s⟩
    simp [hl]

/-! ### NEG and MOV -/

/-- Settles O27: NEG is the clipped difference from k0, and MOV the lesser of a word and itself. -/
theorem negNegatesAndMovCopies : Obligations.NegNegatesAndMovCopies := by
  intro n a s
  have hneg : clip (-(s32 (s.word a))) = fxSub (s.raw (.const .zero)) (s.raw a) := by
    rw [clip_eq_sat32, fxSub, raw_eq, raw_eq, word_const, show s32 (constWord .zero) = 0 from rfl,
      Int.zero_sub]
  have hmov : fxMin (s.raw a) (s.raw a) = s.raw a := ite_self _
  constructor
  · rw [hneg]
    exact ⟨_, rfl, finish_ok s n (fxSub_inRange _ _)⟩
  · refine ⟨s.finish (.gen n) (.ok (s.raw a)), ?_, finish_copy s n a,
      (finish_ok s n (raw_inRange s a)).2⟩
    rw [mov, exec_of_dest s rfl, functionOf, hmov]

/-! ### What commands and steps do at most -/

/-- Settles O30, by what a command can do: raise an error, write its destination, or set the flags. -/
theorem commandsWriteOnlyTheirDestination : Obligations.CommandsWriteOnlyTheirDestination := by
  intro i s
  obtain ⟨t, ht, hc⟩ := exec_cases s i
  refine ⟨t, ht, ?_⟩
  rcases hc with ⟨e, rfl⟩ | ⟨n, v, hdest, rfl⟩ | ⟨a, b, hcmp, rfl⟩
  · obtain ⟨hregs, hflags, houtside, -⟩ := raisesOnly_raise e s
    exact ⟨fun r _ => hregs r, fun _ => hflags, houtside⟩
  · refine ⟨fun r hr => ?_, fun _ => ⟨rfl, rfl⟩, rfl, rfl, rfl⟩
    rw [setErr_word]
    exact word_setGen_other s n _ r fun h => hr (h ▸ hdest)
  · exact ⟨fun _ _ => rfl, fun hne => absurd hcmp (hne a b), rfl, rfl, rfl⟩

/-- Settles O44, by what a step can do: a transaction, which always answers, or a next state at once. -/
theorem stepAlwaysAnswersANextState : Obligations.StepAlwaysAnswersANextState := by
  intro s
  rcases step_cases s with ⟨r, h, hs⟩ | ⟨_, hs⟩ | ⟨_, hs⟩ | hs
  · obtain ⟨_, _, ht, -⟩ := transact_cases (s.setHost h) r
    exact ⟨_, hs.trans ht⟩
  all_goals exact ⟨_, hs⟩

end Sys2Proof.Proofs
end

section
/-!
PROOFS. The family of spec/40_conversion.md: FROMINT and the raw word of a number.
-/

namespace Sys2Proof.Proofs

open Machine

/-! ### FROMINT -/

/-- The saturation of `n * 65536` in terms of `n`: the bounds scaled down are 32767 and -32768 (R81). -/
theorem fxFromInt_eq (n : Int) :
    fxFromInt n = if n > 32767 then 2147483647 else if n < -32768 then -2147483648 else n * 65536 := by
  rw [fxFromInt, sat32_eq, minRaw, maxRaw]
  split
  · omega
  · split <;> omega

/-- Settles O26: the word is the encoding of a well-formed command, which writes the saturated product. -/
theorem fromintScalesAndClips : Obligations.FromintScalesAndClips := by
  intro n a s
  refine ⟨decodeOfEncodeIsTheCommand (.fromint (.gen n) a) rfl, _, exec_of_dest s rfl, ?_⟩
  rw [functionOf, ← raw_eq, ← fxFromInt_eq]
  exact finish_ok s n (fxFromInt_inRange _)

/-! ### The raw word of a number -/

/-- Rounding toward zero stays below a positive bound exactly when the exact quotient does. -/
theorem tdiv_lt_iff_lt_mul {p d k : Int} (hd : 0 < d) (hk : 0 < k) :
    Int.tdiv p d < k ↔ p < k * d := by
  rcases Int.le_total 0 p with hp | hp
  · rw [Int.tdiv_eq_ediv_of_nonneg hp, Int.ediv_lt_iff_lt_mul hd]
  · have hq : 0 ≤ Int.tdiv (-p) d := Int.tdiv_nonneg (by omega) hd.le
    rw [Int.neg_tdiv] at hq
    have hkd : 0 < k * d := Int.mul_pos hk hd
    exact iff_of_true (by omega) (by omega)

/-- Rounding toward zero stays above a negative bound exactly when the exact quotient does. -/
theorem neg_lt_tdiv_iff_mul_lt {p d k : Int} (hd : 0 < d) (hk : 0 < k) :
    -k < Int.tdiv p d ↔ -k * d < p := by
  have h := tdiv_lt_iff_lt_mul (p := -p) hd hk
  rwa [Int.neg_tdiv, neg_lt, neg_lt (a := p), ← Int.neg_mul] at h

/-- A truncated quotient falls short of the exact one by less than 1 in magnitude (R11, R88). -/
theorem natAbs_bounds_of_isTruncatedQuotient {p d q : Int} (hd : d ≠ 0)
    (h : IsTruncatedQuotient p d q) :
    q.natAbs * d.natAbs ≤ p.natAbs ∧ p.natAbs < (q.natAbs + 1) * d.natAbs := by
  obtain ⟨hq, -⟩ := h
  rw [hq]
  refine ⟨Nat.div_mul_le_self _ _, ?_⟩
  rw [Nat.mul_comm]
  exact Nat.lt_mul_div_succ _ (Int.natAbs_pos.2 hd)

/-- The raw word of a number, when it has one, is the truncated product, in range (R82, R83). -/
theorem rawOfFraction_eq_some_iff {num v : Int} {den : Nat} :
    rawOfFraction num den = some v ↔
      Int.tdiv (num * 65536) den = v ∧ InRange (Int.tdiv (num * 65536) den) := by
  rw [rawOfFraction, Option.ite_none_right_eq_some, Option.some_inj, and_comm]

theorem rawOfFraction_isSome_iff {num : Int} {den : Nat} :
    (rawOfFraction num den).isSome = true ↔ InRange (Int.tdiv (num * 65536) den) := by
  simp [Option.isSome_iff_exists, rawOfFraction_eq_some_iff]

/-- The truncated quotient is in range exactly when the exact one lies strictly between the first
integers out of range (R82). -/
theorem inRange_tdiv_iff {p d : Int} (hd : 0 < d) :
    InRange (Int.tdiv p d) ↔ -2147483649 * d < p ∧ p < 2147483648 * d := by
  rw [← neg_lt_tdiv_iff_mul_lt hd (by decide), ← tdiv_lt_iff_lt_mul hd (by decide), InRange, minRaw,
    maxRaw]
  omega

/-- Settles O55: the raw word is a truncated quotient, and its range is that of the exact one. -/
theorem rawOfFractionIsWithinOneUnit : Obligations.RawOfFractionIsWithinOneUnit := by
  intro num den hden
  have hpos : 0 < (den : Int) := Int.natCast_pos.2 hden
  refine ⟨fun v hv => ?_, rawOfFraction_isSome_iff.trans (inRange_tdiv_iff hpos)⟩
  obtain ⟨rfl, -⟩ := rawOfFraction_eq_some_iff.1 hv
  have hq := tdiv_isTruncatedQuotient (num * 65536) hpos.ne'
  have hbounds := natAbs_bounds_of_isTruncatedQuotient hpos.ne' hq
  rw [Int.natAbs_mul, Int.natAbs_natCast] at hbounds
  exact ⟨hq, hbounds⟩

end Sys2Proof.Proofs
end

section
/-!
PROOFS. The family of spec/41_arithmetic.md: ADD, SUB, MUL and DIV, and the laws of their functions.
-/

namespace Sys2Proof.Proofs

open Machine

/-! ### The four commands -/

/-- A command whose function saturates `v` writes `v` clipped and nothing else (R71, R95). -/
theorem exec_writes_clip (s : State) {i : Instr} {n : Fin 8} {v : Int} (hd : i.dest = some (.gen n))
    (hf : functionOf s i = .ok (sat32 v)) :
    ∃ t, exec i s = .next t ∧ s32 (t.word (.gen n)) = clip v ∧ WritesOnly n s t := by
  rw [exec_of_dest s hd, hf, clip_eq_sat32]
  exact ⟨_, rfl, finish_ok s n (sat32_inRange v)⟩

/-- A command whose function errs raises the error and changes nothing else (R71, R166). -/
theorem exec_raises (s : State) {i : Instr} {n : Fin 8} {e : CmdError} (hd : i.dest = some (.gen n))
    (hf : functionOf s i = .error e) : ∃ t, exec i s = .next t ∧ RaisesOnly e s t := by
  rw [exec_of_dest s hd, hf]
  exact ⟨_, rfl, finish_error s n e⟩

/-- Settles O8: the function of ADD saturates the sum. -/
theorem addGivesTheClippedSum : Obligations.AddGivesTheClippedSum := fun n a b s =>
  ⟨decodeOfEncodeIsTheCommand (.add (.gen n) a b) rfl, exec_writes_clip s rfl rfl⟩

/-- Settles O9: the function of SUB saturates the difference. -/
theorem subGivesTheClippedDifference : Obligations.SubGivesTheClippedDifference := fun n a b s =>
  ⟨decodeOfEncodeIsTheCommand (.sub (.gen n) a b) rfl, exec_writes_clip s rfl rfl⟩

/-- Settles O10: the function of MUL saturates the rescaled product, which is a floor. -/
theorem mulGivesTheClippedFloorOfTheProduct : Obligations.MulGivesTheClippedFloorOfTheProduct := by
  intro n a b s
  obtain ⟨t, ht, hw⟩ :=
    exec_writes_clip s (i := .mul (.gen n) a b) (v := asr16 (s.raw a * s.raw b)) rfl rfl
  exact ⟨decodeOfEncodeIsTheCommand (.mul (.gen n) a b) rfl, t, _, ht, asr16_isFloorQuotient _, hw⟩

/-- Settles O11, by whether the divisor is 0. -/
theorem divGivesTheClippedTruncatedQuotient : Obligations.DivGivesTheClippedTruncatedQuotient := by
  intro n a b s
  refine ⟨decodeOfEncodeIsTheCommand (.div (.gen n) a b) rfl, fun hb => ?_, fun hb => ?_⟩
  · obtain ⟨t, ht, hw⟩ := exec_writes_clip s (i := .div (.gen n) a b) rfl (fxDiv_of_ne hb)
    exact ⟨t, _, ht, tdiv_isTruncatedQuotient _ hb, hw⟩
  · refine exec_raises s rfl ?_
    rw [functionOf, raw_eq s b, hb, fxDiv_zero]

/-! ### Subtracting what was added -/

/-- Subtracting `b` from a sum in range is exact, and from a clipped one it misses `a` (R99). -/
theorem fxSub_fxAdd_eq_iff {a b : Int} (ha : InRange a) (hb : InRange b) :
    fxSub (fxAdd a b) b = a ↔ InRange (a + b) := by
  by_cases hsum : InRange (a + b)
  · have hexact : fxSub (fxAdd a b) b = a := by
      rw [fxAdd, sat32_of_inRange _ hsum, fxSub, Int.add_sub_cancel, sat32_of_inRange a ha]
    exact iff_of_true hexact hsum
  · refine iff_of_false ?_ hsum
    simp only [fxSub, fxAdd, sat32_eq, InRange, minRaw, maxRaw] at *
    omega

/-- Words are equal when their signed readings are (R5). -/
theorem s32_inj {v w : Word} : s32 v = s32 w ↔ v = w := BitVec.toInt_inj

/-- Settles O28: the second command reads the saturated sum and the `b` that the first one left alone. -/
theorem subUndoesAddUnlessTheSumSaturates : Obligations.SubUndoesAddUnlessTheSumSaturates := by
  intro n m a b s hb
  obtain ⟨t, ht, hsum, hother, -⟩ := exec_writes_clip s (i := .add (.gen n) a b) rfl rfl
  obtain ⟨u, hu, hdiff, -⟩ := exec_writes_clip t (i := .sub (.gen m) (.gen n) b) rfl rfl
  refine ⟨t, u, ht, hu, ?_⟩
  rw [← s32_inj, hdiff, raw_eq, raw_eq, hsum, hother b hb, clip_eq_sat32, clip_eq_sat32]
  exact fxSub_fxAdd_eq_iff (raw_inRange s a) (raw_inRange s b)

/-! ### Identities -/

theorem fxAdd_comm (a b : Int) : fxAdd a b = fxAdd b a := congrArg sat32 (Int.add_comm a b)

theorem fxMul_comm (a b : Int) : fxMul a b = fxMul b a :=
  congrArg (fun p => sat32 (asr16 p)) (Int.mul_comm a b)

theorem fxAdd_zero {a : Int} (h : InRange a) : fxAdd a 0 = a := by
  rw [fxAdd, Int.add_zero, sat32_of_inRange a h]

theorem fxSub_zero {a : Int} (h : InRange a) : fxSub a 0 = a := by
  rw [fxSub, Int.sub_zero, sat32_of_inRange a h]

theorem fxMul_oneRaw {a : Int} (h : InRange a) : fxMul a oneRaw = a := by
  rw [fxMul, asr16, Int.mul_ediv_cancel a (by decide), sat32_of_inRange a h]

theorem fxDiv_oneRaw {a : Int} (h : InRange a) : fxDiv a oneRaw = .ok a := by
  rw [fxDiv_of_ne (by decide), Int.mul_tdiv_cancel a (by decide), sat32_of_inRange a h]

/-- Multiplying by MINUS_ONE negates exactly before it saturates, so the floor has no effect (R97). -/
theorem fxMul_minusOneRaw (a : Int) : fxMul a minusOneRaw = fxNeg a := by
  have hasr : asr16 (a * minusOneRaw) = 0 - a := by rw [asr16, minusOneRaw]; omega
  rw [fxMul, hasr, fxNeg, fxSub]

/-- The quotient by MINUS_ONE is exact as well, so the truncation has no effect (R97). -/
theorem fxDiv_minusOneRaw (a : Int) : fxDiv a minusOneRaw = .ok (fxNeg a) := by
  have hdiv : Int.tdiv (a * 65536) minusOneRaw = 0 - a := by
    rw [Int.tdiv_neg, Int.mul_tdiv_cancel a (by decide), Int.zero_sub]
  rw [fxDiv_of_ne (by decide), hdiv, fxNeg, fxSub]

theorem raw_zero (s : State) : s.raw (.const .zero) = 0 := rfl
theorem raw_one (s : State) : s.raw (.const .one) = oneRaw := by rw [raw_eq, word_const]; rfl
theorem raw_minusOne (s : State) : s.raw (.const .minusOne) = minusOneRaw := by
  rw [raw_eq, word_const]; rfl

/-- MOV's function is its source: the lesser of a value and itself (R70). -/
theorem functionOf_mov (s : State) (rd a : Reg) : functionOf s (mov rd a) = .ok (s.raw a) :=
  congrArg Except.ok (ite_self _)

/-- NEG's function is the negation: the difference from k0 (R70, R125). -/
theorem functionOf_neg (s : State) (rd a : Reg) : functionOf s (neg rd a) = .ok (fxNeg (s.raw a)) := rfl

/-- Commands with one destination and one function value have one effect (R71). -/
theorem exec_congr {s : State} {i j : Instr} {rd : Reg} (hi : i.dest = some rd) (hj : j.dest = some rd)
    (h : functionOf s i = functionOf s j) : exec i s = exec j s := by
  rw [exec_of_dest s hi, exec_of_dest s hj, h]

/-- Settles O29: each pair of commands evaluates one function. -/
theorem arithmeticIdentities : Obligations.ArithmeticIdentities := by
  intro n a b s
  have ha := raw_inRange s a
  refine ⟨exec_congr rfl rfl ?_, exec_congr rfl rfl ?_, exec_congr rfl rfl ?_, exec_congr rfl rfl ?_,
    exec_congr rfl rfl ?_, exec_congr rfl rfl ?_, exec_congr rfl rfl ?_, exec_congr rfl rfl ?_⟩
  · exact congrArg Except.ok (fxAdd_comm _ _)
  · exact congrArg Except.ok (fxMul_comm _ _)
  · rw [functionOf_mov, functionOf, raw_zero, fxAdd_zero ha]
  · rw [functionOf_mov, functionOf, raw_zero, fxSub_zero ha]
  · rw [functionOf_mov, functionOf, raw_one, fxMul_oneRaw ha]
  · rw [functionOf_mov, functionOf, raw_one, fxDiv_oneRaw ha]
  · rw [functionOf_neg, functionOf, raw_minusOne, fxMul_minusOneRaw]
  · rw [functionOf_neg, functionOf, raw_minusOne, fxDiv_minusOneRaw]

end Sys2Proof.Proofs
end

section
/-!
PROOFS. The family of spec/42_compare.md: CMP, its flags in STATUS, and the six relations.
-/

namespace Sys2Proof.Proofs

open Machine

/-! ### CMP -/

theorem exec_cmp (a b : Reg) (s : State) :
    exec (.cmp a b) s = .next (s.setFlags (s.raw a) (s.raw b)) := rfl

/-- A legal word with CMP's opcode has 0 in `rd` (R65 check 4). -/
theorem rdField_eq_zero_of_legalCommand {w : Word} (h : LegalCommand w) (hop : opcodeField w = 0x0E) :
    rdField w = 0 := by
  obtain ⟨-, -, -, -, -, hrd⟩ := legalCommand_iff_fields.1 h
  rwa [if_pos hop] at hrd

/-- Settles O24: the command sets the two flags, and a word with another `rd` does not decode. -/
theorem cmpSetsEqAndLt : Obligations.CmpSetsEqAndLt := by
  intro a b s
  refine ⟨decodeOfEncodeIsTheCommand (.cmp a b) rfl, _, exec_cmp a b s, ?_, ?_, fun _ => rfl,
    ⟨rfl, rfl, rfl⟩, rfl, fun d hd => ⟨_, execute_of_not_decoded s fun i hi => ?_,
      raisesOnly_raise _ s⟩⟩
  · rw [setFlags_flagEq, decide_eq_true_iff, raw_eq, raw_eq, s32_inj]
  · rw [setFlags_flagLt, decide_eq_true_iff, raw_eq, raw_eq]
  · obtain ⟨hop, hrd, -⟩ := Laws.EncodedFields.of_fields (op := 0x0E) (c := 0) (by decide) d.isLt
      (Laws.EncodedFields.regIndex_lt16 a) (Laws.EncodedFields.regIndex_lt16 b) (by decide)
    have hzero := rdField_eq_zero_of_legalCommand (legalCommand_of_decode hi) hop
    exact hd (Fin.ext (hrd.symm.trans hzero))

/-! ### The flags in STATUS -/

/-- Bit 8 of STATUS is EQ (R26). -/
theorem statusWord_getLsbD_eight (s : State) : s.statusWord.getLsbD 8 = s.flagEq := by
  have hbit : ∀ (lt eq : Bool) (code : BitVec 3),
      (0#22 ++ BitVec.ofBool lt ++ BitVec.ofBool eq ++ 0#5 ++ code).getLsbD 8 = eq := by decide
  exact hbit s.flagLt s.flagEq s.err.code

/-- Bit 9 of STATUS is LT (R26). -/
theorem statusWord_getLsbD_nine (s : State) : s.statusWord.getLsbD 9 = s.flagLt := by
  have hbit : ∀ (lt eq : Bool) (code : BitVec 3),
      (0#22 ++ BitVec.ofBool lt ++ BitVec.ofBool eq ++ 0#5 ++ code).getLsbD 9 = lt := by decide
  exact hbit s.flagLt s.flagEq s.err.code

/-- Settles O25: bits 8 and 9 say "equal" and "less" of one pair of integers, which are in a linear order. -/
theorem statusAfterCmpGivesTheSixRelations : Obligations.StatusAfterCmpGivesTheSixRelations := by
  intro a b s
  refine ⟨_, exec_cmp a b s, ?_⟩
  simp only [statusWord_getLsbD_eight, statusWord_getLsbD_nine, setFlags_flagEq, setFlags_flagLt,
    raw_eq, decide_eq_true_eq, decide_eq_false_iff_not, ne_eq, true_and]
  exact ⟨le_iff_lt_or_eq, by omega, not_lt.symm, by omega⟩

end Sys2Proof.Proofs
end

section
/-!
PROOFS. The family of spec/43_power.md: POW, its fixed points, and the sign of a power.
-/

namespace Sys2Proof.Proofs

open Machine

/-! ### The loop's result -/

theorem fxPow_of_nonneg {n : Int} (base : Int) (h : 0 ≤ n) : fxPow base n = .ok (powMagnitude base n) :=
  if_neg h.not_gt

theorem fxPow_of_neg {n : Int} (base : Int) (h : n < 0) :
    fxPow base n = fxDiv oneRaw (powMagnitude base n) := if_pos h

/-- The fuel is enough for the exponent of a 32-bit word (R116, R120). -/
theorem powerLoop_powMagnitude (base : Int) {n : Int} (h : InRange n) :
    PowerLoop oneRaw base n.natAbs (powMagnitude base n) :=
  powLoop_powerLoop _ _ _ _ (natAbs_lt_of_inRange h)

/-- Settles O12, by the sign of the exponent and, if it is negative, by whether the power is 0. -/
theorem powGivesTheLoopsResult : Obligations.PowGivesTheLoopsResult := by
  intro n a b s
  refine ⟨decodeOfEncodeIsTheCommand (.pow (.gen n) a b) rfl, _, powMagnitude (s.raw a) (s.raw b),
    exec_of_dest s rfl, powerLoop_powMagnitude _ (raw_inRange s b), fun (hb : 0 ≤ s.raw b) => ?_,
    fun (hb : s.raw b < 0) hv => ?_, fun (hb : s.raw b < 0) hv => ?_⟩
  · rw [functionOf, fxPow_of_nonneg _ hb]
    exact finish_ok s n (powMagnitude_inRange _ _)
  · rw [functionOf, fxPow_of_neg _ hb, fxDiv_of_ne hv]
    refine ⟨_, tdiv_isTruncatedQuotient _ hv, ?_⟩
    rw [clip_eq_sat32]
    exact finish_ok s n (sat32_inRange _)
  · rw [functionOf, fxPow_of_neg _ hb, hv, fxDiv_zero]
    exact finish_error s n _

/-! ### The exponents 0, 1 and −1, and the base 0 -/

theorem powMagnitude_zero (base : Int) : powMagnitude base 0 = oneRaw := powLoop_zero _ _ _

/-- For an exponent of magnitude 1 the loop is one multiplication of ONE by the base (R118). -/
theorem powMagnitude_of_natAbs_eq_one {base n : Int} (hb : InRange base) (hn : n.natAbs = 1) :
    powMagnitude base n = base := by
  rw [powMagnitude, hn, powLoop_succ _ _ _ one_ne_zero, if_pos (Nat.mod_eq_of_lt one_lt_two),
    Nat.div_eq_of_lt one_lt_two, powLoop_zero, fxMul_comm, fxMul_oneRaw hb]

theorem fxMul_zero (a : Int) : fxMul a 0 = 0 := by
  rw [fxMul, Int.mul_zero]; rfl

/-- With an accumulator of 0 the loop ends with 0, if its result is 0 or becomes 0 at the exponent's
highest bit. -/
theorem eq_zero_of_powerLoop {r acc : Int} {e : Nat} {v : Int} (h : PowerLoop r acc e v) (hacc : acc = 0) :
    r = 0 ∨ e ≠ 0 → v = 0 := by
  induction h with
  | done r acc => intro hr; simpa using hr
  | even r acc v e he heven _ ih =>
    intro _
    subst hacc
    exact ih (fxMul_zero 0) (.inr (by omega))
  | odd r acc v e _ _ ih =>
    intro _
    subst hacc
    exact ih (fxMul_zero 0) (.inl (fxMul_zero r))

/-- Settles O13: the loop takes no round for the exponent 0 and one for 1 and −1, and ends with 0 for
the base 0. -/
theorem powAtExponentsZeroOneAndMinusOne : Obligations.PowAtExponentsZeroOneAndMinusOne := by
  intro n a b s
  have ha := raw_inRange s a
  refine ⟨fun hb => ?_, fun hb => ?_, fun hb => ?_, fun hbase hb => ?_⟩
  · have hraw : s.raw b = 0 := congrArg s32 hb
    rw [exec_of_dest s rfl, functionOf, hraw, fxPow_of_nonneg _ le_rfl, powMagnitude_zero]
    obtain ⟨hvalue, hframe⟩ := finish_ok s n (v := oneRaw) (by decide)
    exact ⟨_, rfl, s32_inj.1 hvalue, hframe⟩
  · have hraw : s.raw b = 1 := congrArg s32 hb
    rw [exec_of_dest s rfl, functionOf, hraw, fxPow_of_nonneg _ zero_le_one,
      powMagnitude_of_natAbs_eq_one ha rfl]
    exact ⟨_, rfl, finish_copy s n a, (finish_ok s n ha).2⟩
  · have hraw : s.raw b = -1 := congrArg s32 hb
    refine exec_congr rfl rfl ?_
    rw [functionOf, functionOf, hraw, fxPow_of_neg _ (by decide), powMagnitude_of_natAbs_eq_one ha rfl,
      raw_one]
  · obtain ⟨-, t, v, ht, hloop, -, -, hraises⟩ := powGivesTheLoopsResult n a b s
    have hv : v = 0 := eq_zero_of_powerLoop hloop (congrArg s32 hbase) (.inr (by omega))
    exact ⟨t, ht, hraises hb hv⟩

/-! ### The sign of a power -/

theorem fxMul_nonneg {a b : Int} (h : 0 ≤ a * b) : 0 ≤ fxMul a b :=
  sat32_mono (v := 0) (Int.ediv_nonneg h (by decide))

/-- A loop that starts with a result of at least 0 multiplies a negative accumulator into it only in its
first round, for an odd exponent: every later accumulator is a square (R119). -/
theorem nonneg_of_powerLoop {r acc : Int} {e : Nat} {v : Int} (h : PowerLoop r acc e v) :
    0 ≤ r → 0 ≤ acc ∨ e % 2 = 0 → 0 ≤ v := by
  induction h with
  | done r acc => exact fun hr _ => hr
  | even r acc v e _ _ _ ih => exact fun hr _ => ih hr (.inl (fxMul_nonneg (mul_self_nonneg acc)))
  | odd r acc v e hodd _ ih =>
    intro hr hacc
    have hpos : 0 ≤ acc := hacc.resolve_right (by omega)
    exact ih (fxMul_nonneg (Int.mul_nonneg hr hpos)) (.inl (fxMul_nonneg (mul_self_nonneg acc)))

/-- Settles O14: for another base or exponent the loop starts, and so ends, with a result of at least 0. -/
theorem negativePowerNeedsNegativeBaseAndOddExponent :
    Obligations.NegativePowerNeedsNegativeBaseAndOddExponent := by
  intro n a b s t hb ht hneg
  obtain ⟨-, u, v, hu, hloop, hvalue, -⟩ := powGivesTheLoopsResult n a b s
  obtain rfl : t = u := by simpa using ht.symm.trans hu
  obtain ⟨rfl, -⟩ := hvalue hb
  by_contra hcon
  have hnonneg := nonneg_of_powerLoop hloop (by decide) (by omega)
  omega

end Sys2Proof.Proofs
end

section
/-!
PROOFS. The family of spec/44_select_clamp.md: ABS, MIN, MAX, CLAMP and CLAMP01.
-/

namespace Sys2Proof.Proofs

open Machine

/-! ### Absolute value -/

/-- The magnitude of a value in range is not below the range, so saturation only clips it from above:
at MIN alone (R126). -/
theorem fxAbs_eq_sat32_natAbs {a : Int} (h : InRange a) : fxAbs a = sat32 a.natAbs := by
  by_cases hneg : a < 0
  · rw [fxAbs, if_pos hneg, fxNeg, fxSub, Int.zero_sub, Int.ofNat_natAbs_of_nonpos hneg.le]
  · rw [fxAbs, if_neg hneg, Int.natAbs_of_nonneg (not_lt.1 hneg), sat32_of_inRange a h]

/-- Settles O16: the function of ABS saturates the magnitude. -/
theorem absGivesTheClippedMagnitude : Obligations.AbsGivesTheClippedMagnitude := fun n a s =>
  ⟨decodeOfEncodeIsTheCommand (.abs (.gen n) a) rfl,
    exec_writes_clip s rfl (congrArg Except.ok (fxAbs_eq_sat32_natAbs (raw_inRange s a)))⟩

/-! ### The commands that select one of their operands -/

/-- A command whose function selects the value of register `r` writes the word of `r` and nothing else
(R5, R71). -/
theorem exec_copies (s : State) {i : Instr} {n : Fin 8} {r : Reg} (hd : i.dest = some (.gen n))
    (hf : functionOf s i = .ok (s.raw r)) :
    ∃ t, exec i s = .next t ∧ t.word (.gen n) = s.word r ∧ WritesOnly n s t := by
  rw [exec_of_dest s hd, hf]
  exact ⟨_, rfl, finish_copy s n r, (finish_ok s n (raw_inRange s r)).2⟩

/-- Settles O17, by whether the first operand is the lesser. -/
theorem minGivesTheLesserOperand : Obligations.MinGivesTheLesserOperand := by
  intro n a b s
  refine ⟨decodeOfEncodeIsTheCommand (.min (.gen n) a b) rfl, ?_⟩
  split
  case isTrue hlt => exact exec_copies s rfl (congrArg Except.ok (if_pos hlt))
  case isFalse hge => exact exec_copies s rfl (congrArg Except.ok (if_neg hge))

/-- Settles O18, by whether the first operand is the greater. -/
theorem maxGivesTheGreaterOperand : Obligations.MaxGivesTheGreaterOperand := by
  intro n a b s
  refine ⟨decodeOfEncodeIsTheCommand (.max (.gen n) a b) rfl, ?_⟩
  split
  case isTrue hgt => exact exec_copies s rfl (congrArg Except.ok (if_pos hgt))
  case isFalse hle => exact exec_copies s rfl (congrArg Except.ok (if_neg hle))

/-! ### Clamping -/

theorem fxClamp_of_lt {a lo : Int} (hi : Int) (h : a < lo) : fxClamp a lo hi = lo := if_pos h

theorem fxClamp_of_not_lt {a lo : Int} (hi : Int) (h : ¬ a < lo) :
    fxClamp a lo hi = if a > hi then hi else a := if_neg h

/-- Settles O19, by the `lo` test and, if it fails, by the `hi` test. -/
theorem clampTestsLowThenHigh : Obligations.ClampTestsLowThenHigh := by
  intro n a lo hi s
  refine ⟨decodeOfEncodeIsTheCommand (.clamp (.gen n) a lo hi) rfl, ?_⟩
  split
  case isTrue hlo => exact exec_copies s rfl (congrArg Except.ok (fxClamp_of_lt _ hlo))
  case isFalse hlo =>
    have hvalue := fxClamp_of_not_lt (s.raw hi) hlo
    split
    case isTrue hhi => exact exec_copies s rfl (congrArg Except.ok (hvalue.trans (if_pos hhi)))
    case isFalse hhi => exact exec_copies s rfl (congrArg Except.ok (hvalue.trans (if_neg hhi)))

/-- The bounds 0 and ONE are in order, so the order of the two tests does not show (R130). -/
theorem fxClamp01_eq (a : Int) : fxClamp01 a = max 0 (min 65536 a) := by
  rw [fxClamp01, oneRaw]
  by_cases hlo : a < 0
  · rw [fxClamp_of_lt _ hlo]; omega
  · rw [fxClamp_of_not_lt _ hlo]; split <;> omega

/-- Settles O20: the function of CLAMP01 is that of CLAMP between the values of k0 and k1. -/
theorem clamp01ClampsIntoZeroToOne : Obligations.Clamp01ClampsIntoZeroToOne := by
  intro n a s
  refine ⟨decodeOfEncodeIsTheCommand (.clamp01 (.gen n) a) rfl, exec_congr rfl rfl ?_, _,
    exec_of_dest s rfl, ?_⟩
  · rw [functionOf, functionOf, raw_zero, raw_one, fxClamp01]
  · rw [functionOf, ← raw_eq, ← fxClamp01_eq]
    exact finish_ok s n (fxClamp01_inRange (raw_inRange s a))

end Sys2Proof.Proofs
end

section
/-!
PROOFS. The family of spec/45_interpolate.md: LERP, LERPU, and the range of LERP.
-/

namespace Sys2Proof.Proofs

open Machine

/-! ### The three clipped steps -/

/-- A command whose function interpolates between `s.raw a` and `s.raw b` with the weight `t` writes what the
three clipped steps give and nothing else (R71, R142). -/
theorem exec_interpolates (s : State) {i : Instr} {n : Fin 8} {a b : Reg} {t : Int}
    (hd : i.dest = some (.gen n)) (hf : functionOf s i = .ok (fxLerpu (s.raw a) (s.raw b) t)) :
    ∃ u p, exec i s = .next u ∧
      IsFloorQuotient (clip (s32 (s.word b) - s32 (s.word a)) * t) p ∧
      s32 (u.word (.gen n)) = clip (s32 (s.word a) + clip p) ∧ WritesOnly n s u := by
  obtain ⟨u, hu, hvalue, hframe⟩ := exec_writes_clip s hd hf
  refine ⟨u, asr16 (fxSub (s.raw b) (s.raw a) * t), hu, ?_, ?_, hframe⟩
  · rw [clip_eq_sat32, ← raw_eq, ← raw_eq, ← fxSub]
    exact asr16_isFloorQuotient _
  · rw [hvalue, clip_eq_sat32 (asr16 _), ← raw_eq, ← fxMul]

/-- Settles O21: the function of LERPU interpolates with the third operand. -/
theorem lerpuGivesTheThreeClippedSteps : Obligations.LerpuGivesTheThreeClippedSteps := fun n a b c s =>
  ⟨decodeOfEncodeIsTheCommand (.lerpu (.gen n) a b c) rfl, exec_interpolates s rfl rfl⟩

/-- Settles O22: the function of LERP interpolates with the third operand clamped as CLAMP01 does. -/
theorem lerpClampsThenInterpolates : Obligations.LerpClampsThenInterpolates := by
  intro n a b c s
  refine ⟨decodeOfEncodeIsTheCommand (.lerp (.gen n) a b c) rfl, exec_interpolates s rfl ?_⟩
  rw [functionOf, fxLerp, fxClamp01_eq, raw_eq s c]

/-! ### The range of LERP -/

/-- The floor and the saturation are monotone in the exact product. -/
theorem fxMul_le_fxMul {a b c d : Int} (h : a * b ≤ c * d) : fxMul a b ≤ fxMul c d :=
  sat32_mono (Int.ediv_le_ediv (by decide) h)

/-- With a weight between 0 and ONE the product lies between its values at 0 and at ONE, which are 0 and the
other factor (R143). -/
theorem fxMul_between_zero_and_self {d t : Int} (hd : InRange d) (h0 : 0 ≤ t) (h1 : t ≤ oneRaw) :
    min 0 d ≤ fxMul d t ∧ fxMul d t ≤ max 0 d := by
  have hat0 : fxMul d 0 = 0 := fxMul_zero d
  have hat1 : fxMul d oneRaw = d := fxMul_oneRaw hd
  rcases le_total 0 d with hpos | hneg
  · have hlow := fxMul_le_fxMul (Int.mul_le_mul_of_nonneg_left h0 hpos)
    have hhigh := fxMul_le_fxMul (Int.mul_le_mul_of_nonneg_left h1 hpos)
    omega
  · have hhigh := fxMul_le_fxMul (Int.mul_le_mul_of_nonpos_left hneg h0)
    have hlow := fxMul_le_fxMul (Int.mul_le_mul_of_nonpos_left hneg h1)
    omega

/-- Saturation moves a value toward 0 only, so a saturated difference has the lesser magnitude (R143). -/
theorem sat32_between_zero_and_self (v : Int) : min 0 v ≤ sat32 v ∧ sat32 v ≤ max 0 v := by
  rw [sat32_eq, minRaw, maxRaw]; omega

/-- With a weight between 0 and ONE the last sum is between the end points, so it does not saturate (R143). -/
theorem fxLerpu_between_endPoints {a b t : Int} (ha : InRange a) (hb : InRange b) (h0 : 0 ≤ t)
    (h1 : t ≤ oneRaw) : min a b ≤ fxLerpu a b t ∧ fxLerpu a b t ≤ max a b := by
  obtain ⟨hdlow, hdhigh⟩ : min 0 (b - a) ≤ fxSub b a ∧ fxSub b a ≤ max 0 (b - a) :=
    sat32_between_zero_and_self (b - a)
  obtain ⟨hplow, hphigh⟩ := fxMul_between_zero_and_self (fxSub_inRange b a) h0 h1
  have hlow : min a b ≤ a + fxMul (fxSub b a) t := by omega
  have hhigh : a + fxMul (fxSub b a) t ≤ max a b := by omega
  have hrange : InRange (a + fxMul (fxSub b a) t) := by simp only [InRange] at *; omega
  rw [fxLerpu, fxAdd, sat32_of_inRange _ hrange]
  exact ⟨hlow, hhigh⟩

/-- Settles O23: the clamped weight is between 0 and ONE. -/
theorem lerpStaysBetweenItsEndPoints : Obligations.LerpStaysBetweenItsEndPoints := by
  intro n a b c s
  refine ⟨_, exec_of_dest s rfl, ?_⟩
  rw [functionOf, (finish_ok s n (fxLerp_inRange _ _ _)).1, fxLerp, fxClamp01_eq]
  exact fxLerpu_between_endPoints (raw_inRange s a) (raw_inRange s b) (by omega) (by rw [oneRaw]; omega)

end Sys2Proof.Proofs
end

section
/-!
PROOFS. The family of spec/46_sqrt.md: SQRT and its Newton rounds.
-/

namespace Sys2Proof.Proofs

open Machine

/-! ### The Newton rounds -/

/-- What every estimate of the rounds is: a value of the block that is at least 1 (R153). -/
def IsEstimate (est : Int) : Prop := 1 ≤ est ∧ InRange est

/-- The round of rule R152 is the block's own saturating sum and quotient, halved (R151). -/
theorem newtonRound_eq (a est : Int) :
    newtonRound a est = fxAdd est (sat32 (Int.tdiv (a * 65536) est)) / 2 := by
  rw [newtonRound, clip_eq_sat32, clip_eq_sat32, fxAdd]

/-- A round of a positive operand keeps the estimate at least 1 and in range (R153). -/
theorem isEstimate_newtonRound {a est : Int} (ha : 1 ≤ a) (h : IsEstimate est) :
    IsEstimate (newtonRound a est) := by
  obtain ⟨hpos, hrange⟩ := h
  obtain ⟨q, hq, -, hround⟩ := newton_round_pos ha hpos hrange
  rw [fxDiv_of_ne (by omega)] at hq
  cases hq
  rwa [newtonRound_eq]

/-- With rounds left and an estimate that is not 0, the division succeeds: the loop exits if the round
leaves the estimate as it is, and goes on with the new one otherwise (R151). -/
theorem sqrtLoop_succ (rounds : Nat) (a : Int) {est : Int} (h : est ≠ 0) :
    sqrtLoop (rounds + 1) a est =
      if newtonRound a est = est then .ok (newtonRound a est)
      else sqrtLoop rounds a (newtonRound a est) := by
  rw [sqrtLoop, fxDiv_of_ne h, newtonRound_eq]

/-- The early exit does not change the result: at a fixed point every later round would give the same
estimate again (R152). -/
theorem sqrtLoop_eq_iterate {a : Int} (ha : 1 ≤ a) (rounds : Nat) :
    ∀ {est : Int}, IsEstimate est →
      sqrtLoop rounds a est = .ok ((newtonRound a)^[rounds] est) := by
  induction rounds with
  | zero => exact fun _ => rfl
  | succ rounds ih =>
    intro est h
    have hne : est ≠ 0 := (zero_lt_one.trans_le h.1).ne'
    rw [sqrtLoop_succ _ _ hne]
    split
    case isTrue hfixed => rw [hfixed, Function.iterate_fixed hfixed]
    case isFalse => rw [ih (isEstimate_newtonRound ha h), Function.iterate_succ_apply]

/-- The iterates of a positive operand are at least 1 and in range (R153). -/
theorem isEstimate_iterate_newtonRound {a : Int} (ha : 1 ≤ a) (rounds : Nat) {est : Int}
    (h : IsEstimate est) : IsEstimate ((newtonRound a)^[rounds] est) :=
  Set.MapsTo.iterate (s := {e | IsEstimate e}) (fun _ => isEstimate_newtonRound ha) rounds h

/-! ### The command -/

theorem fxSqrt_zero : fxSqrt 0 = .ok 0 := rfl

theorem fxSqrt_of_neg {a : Int} (h : a < 0) : fxSqrt a = .error .domainError := if_pos h

/-- The square root of a positive operand is its sixth iterate, seeded with the operand (R151, R152). -/
theorem fxSqrt_of_pos {a : Int} (h : IsEstimate a) : fxSqrt a = .ok ((newtonRound a)^[6] a) := by
  have hpos : 1 ≤ a := h.1
  rw [fxSqrt, if_neg (by omega), if_neg (by omega), sqrtLoop_eq_iterate hpos _ h]

/-- Settles O15, by the sign of the operand. -/
theorem sqrtGivesTheSixthNewtonIterate : Obligations.SqrtGivesTheSixthNewtonIterate := by
  intro n a s
  refine ⟨decodeOfEncodeIsTheCommand (.sqrt (.gen n) a) rfl, fun (ha : s.raw a = 0) => ?_,
    fun (ha : 0 < s.raw a) => ?_, fun (ha : s.raw a < 0) => exec_raises s rfl (fxSqrt_of_neg ha)⟩
  · refine ⟨_, exec_of_dest s rfl, ?_⟩
    rw [functionOf, ha, fxSqrt_zero]
    exact finish_ok s n (by decide)
  · have hseed : IsEstimate (s.raw a) := ⟨ha, raw_inRange s a⟩
    obtain ⟨hone, hrange⟩ := isEstimate_iterate_newtonRound ha 6 hseed
    obtain ⟨hvalue, hframe⟩ := finish_ok s n hrange
    refine ⟨_, exec_of_dest s rfl, ?_⟩
    rw [functionOf, fxSqrt_of_pos hseed]
    exact ⟨hvalue, hvalue.symm ▸ hone, hframe⟩

end Sys2Proof.Proofs
end

section
/-!
PROOFS. The families of spec/60_exceptions.md and spec/70_reset_and_hazards.md: where the command errors come
from and what they change, what a result depends on, and how the block becomes ready.
-/

namespace Sys2Proof.Proofs

open Machine

/-! ### Where the command errors come from -/

theorem fxDiv_eq_error_iff {a b : Int} {e : CmdError} :
    fxDiv a b = .error e ↔ b = 0 ∧ e = .divideByZero := by
  by_cases hb : b = 0
  · rw [hb, fxDiv_zero]; simp [eq_comm]
  · rw [fxDiv_of_ne hb]; simp [hb]

theorem powMagnitude_eq_iff {base n v : Int} (h : InRange n) :
    powMagnitude base n = v ↔ PowerLoop oneRaw base n.natAbs v :=
  ⟨fun hv => hv ▸ powerLoop_powMagnitude base h, PowerLoop.unique (powerLoop_powMagnitude base h)⟩

theorem fxPow_eq_error_iff {base n : Int} {e : CmdError} (h : InRange n) :
    fxPow base n = .error e ↔ (n < 0 ∧ PowerLoop oneRaw base n.natAbs 0) ∧ e = .divideByZero := by
  rcases lt_or_ge n 0 with hn | hn
  · rw [fxPow_of_neg base hn, fxDiv_eq_error_iff, powMagnitude_eq_iff h]; simp [hn]
  · rw [fxPow_of_nonneg base hn]; simp [hn.not_gt]

theorem fxSqrt_eq_error_iff {a : Int} {e : CmdError} (h : InRange a) :
    fxSqrt a = .error e ↔ a < 0 ∧ e = .domainError := by
  rcases lt_trichotomy a 0 with ha | rfl | ha
  · rw [fxSqrt_of_neg ha]; simp [ha, eq_comm]
  · rw [fxSqrt_zero]; simp
  · rw [fxSqrt_of_pos ⟨ha, h⟩]; simp [ha.not_gt]

theorem functionOf_eq_divideByZero_iff (s : State) (i : Instr) :
    functionOf s i = .error .divideByZero ↔
      (∃ d a b, i = .div d a b ∧ s32 (s.word b) = 0) ∨
      (∃ d a b, i = .pow d a b ∧ s32 (s.word b) < 0 ∧
        PowerLoop 65536 (s32 (s.word a)) (s32 (s.word b)).natAbs 0) := by
  cases i
  case div d a b => simp [functionOf, fxDiv_eq_error_iff, raw_eq]
  case pow d a b => simp [functionOf, raw_eq, fxPow_eq_error_iff (s32_inRange (s.word b))]
  case sqrt d a => simp [functionOf, fxSqrt_eq_error_iff (raw_inRange s a)]
  all_goals simp [functionOf]

theorem functionOf_eq_domainError_iff (s : State) (i : Instr) :
    functionOf s i = .error .domainError ↔ ∃ d a, i = .sqrt d a ∧ s32 (s.word a) < 0 := by
  cases i
  case div d a b => simp [functionOf, fxDiv_eq_error_iff]
  case pow d a b => simp [functionOf, fxPow_eq_error_iff (raw_inRange s b)]
  case sqrt d a => simp [functionOf, raw_eq, fxSqrt_eq_error_iff (s32_inRange (s.word a))]
  all_goals simp [functionOf]

theorem finish_gen_err_iff (s : State) (n : Fin 8) (r : Except CmdError Int) (e : CmdError) :
    (s.finish (.gen n) r).err = .raised e ↔ r = .error e := by
  cases r <;> simp [State.finish]

/-- A well-formed command can end in no error but its function's own (R71, R163). -/
theorem exec_wf_err_iff {i : Instr} (s : State) (hwf : i.wf = true) :
    ∃ t, exec i s = .next t ∧ ∀ e, t.err = .raised e ↔ functionOf s i = .error e := by
  cases hd : i.dest with
  | none =>
    obtain ⟨a, b, rfl⟩ := dest_eq_none hd
    exact ⟨_, exec_cmp a b s, by simp [functionOf]⟩
  | some rd =>
    cases rd with
    | const k => simp [Instr.wf, hd, Reg.isGeneral] at hwf
    | gen n => exact ⟨_, exec_of_dest s hd, finish_gen_err_iff s n _⟩

/-- Settles O32: the function of a well-formed command errs so in just these two cases. -/
theorem divideByZeroOnlyFromDivAndPow : Obligations.DivideByZeroOnlyFromDivAndPow := by
  intro i s hwf
  obtain ⟨t, ht, herr⟩ := exec_wf_err_iff s hwf
  exact ⟨t, ht, (herr _).trans (functionOf_eq_divideByZero_iff s i)⟩

/-- Settles O33: the function of a well-formed command errs so in just this case. -/
theorem domainErrorOnlyFromSqrtOfNegative : Obligations.DomainErrorOnlyFromSqrtOfNegative := by
  intro i s hwf
  obtain ⟨t, ht, herr⟩ := exec_wf_err_iff s hwf
  exact ⟨t, ht, (herr _).trans (functionOf_eq_domainError_iff s i)⟩

/-! ### What an error changes -/

theorem raise_of_exec_err {i : Instr} {s t : State} {e : CmdError} (ht : exec i s = .next t)
    (herr : t.err = .raised e) : t = s.raise e := by
  obtain ⟨u, hu, hc⟩ := exec_cases s i
  obtain rfl : u = t := by simpa [hu] using ht
  rcases hc with ⟨f, rfl⟩ | ⟨n, v, -, rfl⟩ | ⟨a, b, -, rfl⟩
  · obtain rfl : f = e := by simpa using herr
    rfl
  · cases herr
  · cases herr

/-- Settles O31: a word that ends in an error is a command that raised it, or an illegal word. -/
theorem failingCommandChangesOnlyErr : Obligations.FailingCommandChangesOnlyErr := by
  intro w s t e ht herr
  rcases execute_cases s w with ⟨i, -, hx⟩ | ⟨_, -, hx⟩ <;> rw [hx] at ht
  · exact raise_of_exec_err ht herr
  · cases ht
    cases herr
    rfl

/-! ### What a result depends on -/

theorem raw_congr {s s' : State} {r : Reg} (h : s.word r = s'.word r) : s.raw r = s'.raw r := by
  rw [raw_eq, raw_eq, h]

/-- A command's function reads the source registers only (R72, R171). -/
theorem functionOf_congr {i : Instr} {s s' : State} (h : ∀ r ∈ i.sources, s.word r = s'.word r) :
    functionOf s i = functionOf s' i := by
  have hraw : ∀ r ∈ i.sources, s.raw r = s'.raw r := fun r hr => raw_congr (h r hr)
  cases i
  case sqrt | abs | clamp01 | fromint | cmp =>
    obtain ⟨ha, -⟩ := List.forall_mem_cons.1 hraw
    rw [functionOf, functionOf, ha]
  case clamp | lerp | lerpu =>
    obtain ⟨ha, hbc⟩ := List.forall_mem_cons.1 hraw
    obtain ⟨hb, hc⟩ := List.forall_mem_cons.1 hbc
    rw [functionOf, functionOf, ha, hb, List.forall_mem_singleton.1 hc]
  all_goals
    obtain ⟨ha, hb⟩ := List.forall_mem_cons.1 hraw
    rw [functionOf, functionOf, ha, List.forall_mem_singleton.1 hb]

/-- How a command ends, and the word it then writes, follow from its function's answer (R71). -/
theorem finish_agrees (s s' : State) (rd : Reg) (r : Except CmdError Int) :
    (s.finish rd r).err = (s'.finish rd r).err ∧
      ((s.finish rd r).err = .ok → (s.finish rd r).word rd = (s'.finish rd r).word rd) := by
  cases rd with
  | const k => exact ⟨rfl, nofun⟩
  | gen n =>
    cases r with
    | error e => exact ⟨rfl, nofun⟩
    | ok v => exact ⟨rfl, fun _ => by simp [State.finish]⟩

/-- Settles O34, by whether the command has a destination: if so it ends by its function's answer, which is the
same in both states, and if not it is CMP, which sets the flags from its two sources. -/
theorem resultDependsOnSourcesOnly : Obligations.ResultDependsOnSourcesOnly := by
  intro i s s' h
  cases hd : i.dest with
  | none =>
    obtain ⟨a, b, rfl⟩ := dest_eq_none hd
    have ha : s.raw a = s'.raw a := raw_congr (h a (by simp [Instr.sources]))
    have hb : s.raw b = s'.raw b := raw_congr (h b (by simp [Instr.sources]))
    exact ⟨_, _, exec_cmp a b s, exec_cmp a b s', by simp [ha, hb]⟩
  | some rd =>
    obtain ⟨herr, hword⟩ := finish_agrees s s' rd (functionOf s' i)
    refine ⟨_, _, exec_of_dest s hd, exec_of_dest s' hd, ?_⟩
    rw [functionOf_congr h]
    refine ⟨herr, fun hok n hn => ?_, nofun⟩
    cases hn
    exact hword hok

/-! ### Readiness and reset -/

theorem pinsOut_idle_zero {s : State} {i : PinsIn} (hp : s.port = .idle 0) (hr : i.rst = false) :
    s.pinsOut i = ⟨true, none⟩ := by
  simp [State.pinsOut, hp, hr]

theorem pinsOut_rst {s : State} {i : PinsIn} (hr : i.rst = true) : s.pinsOut i = ⟨false, none⟩ :=
  if_pos hr

theorem cycle_idle_succ {s : State} {i : PinsIn} {wait : Nat} (hp : s.port = .idle (wait + 1))
    (hr : i.rst = false) : cycle s i = .next (s.setPort (.idle wait)) := by
  simp [cycle, hp, hr]

/-- Settles O53: the response of a command error leaves no wait behind. -/
theorem readyAtOnceAfterACommandError : Obligations.ReadyAtOnceAfterACommandError := by
  intro s d e i j hp hr hready hrj
  refine ⟨s.taken ⟨d, .done (.raised e)⟩, ?_, ?_, fun _ => rfl, ⟨rfl, rfl⟩, rfl⟩
  · rw [cycle_responding hp hr, if_pos hready]
  · rw [pinsOut_idle_zero (taken_port ..) hrj]

/-- Settles O52, by induction on the cycles: each shortens the wait by one and does nothing else. -/
theorem idleBlockBecomesReady : Obligations.IdleBlockBecomesReady := by
  intro s wait ins hp hlen hrst
  induction ins generalizing s wait with
  | nil =>
    obtain rfl : 0 = wait := hlen
    exact congrArg _ (setPort_of_port_eq hp).symm
  | cons i rest ih =>
    obtain rfl : rest.length + 1 = wait := hlen
    rw [cycles_cons rest (cycle_idle_succ hp (hrst i List.mem_cons_self))]
    exact ih _ _ (setPort_port ..) rfl fun j hj => hrst j (List.mem_cons_of_mem i hj)

theorem step_reset {s : State} {rest : List HostEvent} (hp : ∀ r left, s.port ≠ .busy r left)
    (hh : s.host = .reset :: rest) : step s = .next (s.resetBlock.setHost rest) := by
  cases hport : s.port with
  | busy r left => exact absurd hport (hp r left)
  | idle | responding => simp [step, advance, hostEvent, hport, hh]

/-- Settles O42: the step is the block reset, with the events after the reset still to come. -/
theorem resetClearsFlagsAndErr : Obligations.ResetClearsFlagsAndErr := by
  intro s rest hp hh
  exact ⟨_, step_reset hp hh, rfl, rfl, rfl, BitVec.eq_of_toNat_eq (statusWord_toNat _), rfl, rfl,
    fun _ => rfl⟩

/-- Settles O54: whatever the port was doing, the cycle is the block reset, which leaves it idle. -/
theorem resetPinAbandonsTheTransaction : Obligations.ResetPinAbandonsTheTransaction := by
  intro s i j hr hrj
  rw [pinsOut_rst hr]
  refine ⟨rfl, rfl, _, cycle_rst hr, rfl, rfl, rfl, rfl, ?_⟩
  rw [pinsOut_idle_zero (resetBlock_port s) hrj]
  exact ⟨rfl, rfl⟩

end Sys2Proof.Proofs
end
